-- ==== Sys2Proof/Word.lean ====
section
/-! DEFINITION. Bytes and byte strings, in the notation of 00_scope.md section 7. -/
namespace Sys2Proof

/-- One 8-bit byte (20_memory R40). -/
abbrev Byte := BitVec 8

/-- A byte string, first byte first (00_scope section 7). -/
abbrev Bytes := List Byte

/-- `zeros(n)`: the byte string of `n` bytes all `0x00` (00_scope section 7). -/
abbrev zeros (n : Nat) : Bytes := List.replicate n 0x00#8

end Sys2Proof
end

