-- ==== Sys2Proof/Config.lean ====
section
/-! DEFINITION. The implementation parameters of 00_scope R4, R5: constants, widths, and the type of the
parameters a model takes as arguments. -/
namespace Sys2Proof

/-- The default of the OPEN parameter `ROUNDS_W` (R4; log 1). -/
abbrev Config.roundsW : Nat := 32
/-- The default of the OPEN parameter `LEN_W` (R4; log 1). -/
abbrev Config.lenW : Nat := 16
/-- `DIGEST_LEN` (R4). -/
abbrev Config.digestLen : Nat := 32
/-- `IBUF_CAP` (R4). -/
abbrev Config.ibufCap : Nat := 64
/-- `OBUF_CAP` (R4). -/
abbrev Config.obufCap : Nat := 64

/-- `HASH` (R5): some total, deterministic function from byte strings to `DIGEST_LEN` bytes, and nothing else is
known of it: a free value, log 2. -/
opaque Config.hash : Bytes → Vector Byte Config.digestLen

/-- `REGMAP` (20_memory R46): the bus offset of every register and buffer. -/
structure RegMap where
  cmd : Nat
  status : Nat
  half : Nat
  rounds : Nat
  ridx : Nat
  ilen : Nat
  klen : Nat
  olen : Nat
  ibuf : Nat
  obuf : Nat
  kbuf : Nat
deriving DecidableEq, Repr

/-- The OPEN parameters, which the step relation takes as an argument (00_scope R4: "A model takes the ones marked OPEN
as arguments"; 10_state R29). `Sys2Proof.chip` (Decode.lean) has the defaults; `Params.wellFormed` (WellFormed.lean) says
which values they may take. -/
structure Params where
  /-- `ROUNDS_W` (R4). -/
  roundsW : Nat
  /-- `LEN_W` (R4). -/
  lenW : Nat
  /-- `HASH` (R5). -/
  hash : Bytes → Vector Byte Config.digestLen
  /-- `KBUF_CAP` (R4). -/
  kbufCap : Nat
  /-- `REGMAP` (R46). -/
  regmap : RegMap

end Sys2Proof
end

