-- ==== Sys2Proof/Syntax.lean ====
section
/-! DEFINITION. The instructions: one constructor for each of the 23 rows of spec/opcode_table.json, their operand
forms, and the bus transactions that carry them (30_encoding R62, R66, R67, R69). -/
namespace Sys2Proof

/-- The registers of the `REG` address space (20_memory R40). -/
inductive Reg where
  | cmd | status | half | rounds | ridx | ilen | klen | olen
deriving DecidableEq, Repr

/-- Every register, in the order of 20_memory R40. -/
def Reg.all : List Reg := [.cmd, .status, .half, .rounds, .ridx, .ilen, .klen, .olen]

/-- The three buffers, each an address space of its own (20_memory R40). -/
inductive Buf where
  | ibuf | kbuf | obuf
deriving DecidableEq, Repr

/-- Every buffer. -/
def Buf.all : List Buf := [.ibuf, .kbuf, .obuf]

/-- What `RD` and `WR` address: a register by name, or a reserved offset of the map with the access's width
(20_memory R47). -/
inductive RegTarget where
  | reg (r : Reg)
  | reserved (offset width : Nat)
deriving DecidableEq, Repr

/-- The instructions, one constructor per row of the opcode table. -/
inductive Instr where
  /-- `CLR` (43_control R130). -/
  | clr
  /-- `XFORM` (40_feistel_round_engine R81). -/
  | xform
  /-- `DIGEST` (41_hash_round_function_wrapper R115). -/
  | digest
  /-- `XORC` (42_block_xor_combine R124). -/
  | xorc
  /-- `RESERVED_04`: values `0x04` to `0x07` (43_control R131); `low` is the free bits. -/
  | reserved04 (low : BitVec 2)
  /-- `RESERVED_08`: values `0x08` to `0x0F`. -/
  | reserved08 (low : BitVec 3)
  /-- `RESERVED_10`: values `0x10` to `0x1F`. -/
  | reserved10 (low : BitVec 4)
  /-- `RESERVED_20`: values `0x20` to `0x3F`. -/
  | reserved20 (low : BitVec 5)
  /-- `RESERVED_40`: values `0x40` to `0x7F`. -/
  | reserved40 (low : BitVec 6)
  /-- `RESERVED_80`: values `0x80` to `0xFF`. -/
  | reserved80 (low : BitVec 7)
  /-- `RD <reg>` (43_control R132). -/
  | rd (target : RegTarget)
  /-- `WR <reg>, <value>` (43_control R133): a number, which the write truncates to the register's width. -/
  | wr (target : RegTarget) (value : Nat)
  /-- `RDB <buf>[<i>]` (43_control R134). -/
  | rdb (buf : Buf) (index : Nat)
  /-- `WRB <buf>[<i>], <byte>` (43_control R134). -/
  | wrb (buf : Buf) (index : Nat) (value : Byte)
  /-- `ROUND`, an engine step (40_feistel_round_engine R86). -/
  | round
  /-- `FINISH`, an engine step (40_feistel_round_engine R91). -/
  | finish
  /-- `ENCRYPT` (30_encoding R67). -/
  | encrypt
  /-- `DECRYPT` (30_encoding R67). -/
  | decrypt
  /-- `LOADBLK <bytes>` (30_encoding R67). -/
  | loadblk (bytes : Bytes)
  /-- `LOADKEY <bytes>` (30_encoding R67). -/
  | loadkey (bytes : Bytes)
  /-- `WAIT` (30_encoding R67). -/
  | wait
  /-- `READOUT` (30_encoding R67). -/
  | readout
  /-- `FEEDBACK` (30_encoding R67). -/
  | feedback
deriving DecidableEq, Repr

/-- One host transaction on the bus: direction, offset, width in bits, and the value of a write (30_encoding R69). -/
inductive BusTxn where
  | read (offset width : Nat)
  | write (offset width : Nat) (value : BitVec width)
deriving DecidableEq, Repr

/-- Why a transaction is no access the block supports. -/
inductive BusError where
  /-- The access is narrower or wider than the register or buffer byte it falls on, starts inside a register, or is
  wider than every register, or of no bit (20_memory R43, 93_implementation_defined U6; log 11). -/
  | accessWidth
deriving DecidableEq, Repr

/-- The two engine steps are "not issued by the host" (opcode_table.json rows ROUND, FINISH). -/
def Instr.hostIssued : Instr → Bool
  | .round | .finish => false
  | _ => true

end Sys2Proof
end

