-- ==== Sys2Proof/Decode.lean ====
section
/-! DEFINITION. The default register map, the decoder of `CMD` values and of bus transactions, and the encoder
(30_encoding R60, R62, R68, R69; 20_memory R43, R46, R47). -/
namespace Sys2Proof

/-- The default `REGMAP` (20_memory R46). -/
def defaultRegMap : RegMap where
  cmd := 0x000
  status := 0x001
  half := 0x002
  rounds := 0x004
  ridx := 0x008
  ilen := 0x00C
  klen := 0x00E
  olen := 0x010
  ibuf := 0x040
  obuf := 0x080
  kbuf := 0x0C0

/-- The parameters of the chip that `exec` and `step` run: the spec's defaults (00_scope R4; logs 1 and 3), and the
uninterpreted `HASH` (log 2). -/
def chip : Params where
  roundsW := Config.roundsW
  lenW := Config.lenW
  hash := Config.hash
  kbufCap := 64
  regmap := defaultRegMap

/-- The capacity of a buffer in bytes (20_memory R40). -/
def Params.cap (p : Params) : Buf → Nat
  | .ibuf => Config.ibufCap
  | .kbuf => p.kbufCap
  | .obuf => Config.obufCap

/-- The width of a register in bits (10_state R10). -/
def Reg.width (p : Params) : Reg → Nat
  | .cmd | .status | .half => 8
  | .rounds | .ridx => p.roundsW
  | .ilen | .klen | .olen => p.lenW

/-- The width of the widest register, and so of the widest access that the bus has to carry (43_control R132 leaves
the bus width open; log 11). -/
def Params.busW (p : Params) : Nat := max 8 (max p.roundsW p.lenW)

/-- The offset of a register on the map (20_memory R46). -/
def RegMap.regBase (m : RegMap) : Reg → Nat
  | .cmd => m.cmd
  | .status => m.status
  | .half => m.half
  | .rounds => m.rounds
  | .ridx => m.ridx
  | .ilen => m.ilen
  | .klen => m.klen
  | .olen => m.olen

/-- The offset of a buffer's byte 0 on the map (20_memory R46). -/
def RegMap.bufBase (m : RegMap) : Buf → Nat
  | .ibuf => m.ibuf
  | .obuf => m.obuf
  | .kbuf => m.kbuf

/-- How many byte offsets an access of `width` bits covers. -/
def bytesOf (width : Nat) : Nat := (width + 7) / 8

/-- Do the `n` offsets from `a` on and the `k` offsets from `b` on meet? -/
def overlaps (a n b k : Nat) : Bool := (b < a + n) && (a < b + k)

/-- Does an access of `width` bits at `offset` fall, in part or whole, on a register or a buffer? -/
def Params.touches (p : Params) (offset width : Nat) : Bool :=
  Reg.all.any (fun r => overlaps (p.regmap.regBase r) (bytesOf (r.width p)) offset (bytesOf width)) ||
    Buf.all.any (fun b => overlaps (p.regmap.bufBase b) (p.cap b) offset (bytesOf width))

/-- A reserved access: outside every register and buffer (20_memory R44, R46, R47), of a width the bus can carry. -/
def Params.isReserved (p : Params) (offset width : Nat) : Bool :=
  (1 ≤ width) && (width ≤ p.busW) && !p.touches offset width

/-- Decoding of an 8-bit value written to `CMD`, by the match and mask columns of the opcode table: all 256 values
have a row (30_encoding R62, R63). -/
def decodeCmd (v : Byte) : Instr :=
  if v = 0x00#8 then .clr
  else if v = 0x01#8 then .xform
  else if v = 0x02#8 then .digest
  else if v = 0x03#8 then .xorc
  else if v &&& 0xFC#8 = 0x04#8 then .reserved04 (v.setWidth 2)
  else if v &&& 0xF8#8 = 0x08#8 then .reserved08 (v.setWidth 3)
  else if v &&& 0xF0#8 = 0x10#8 then .reserved10 (v.setWidth 4)
  else if v &&& 0xE0#8 = 0x20#8 then .reserved20 (v.setWidth 5)
  else if v &&& 0xC0#8 = 0x40#8 then .reserved40 (v.setWidth 6)
  else .reserved80 (v.setWidth 7)

/-- What a bus access addresses. -/
inductive BusTarget where
  | reg (t : RegTarget)
  | byte (buf : Buf) (index : Nat)
deriving DecidableEq, Repr

/-- The object an access of `width` bits at `offset` addresses: a whole register at its own offset, one byte of a
buffer, or a reserved place. Any other width is refused (20_memory R43, R46, R47; log 11). -/
def Params.target (p : Params) (offset width : Nat) : Except BusError BusTarget :=
  match Reg.all.find? (fun r => p.regmap.regBase r == offset) with
  | some r => if width = r.width p then .ok (.reg (.reg r)) else .error .accessWidth
  | none =>
    match Buf.all.find? (fun b =>
        (p.regmap.bufBase b ≤ offset) && (offset < p.regmap.bufBase b + p.cap b)) with
    | some b => if width = 8 then .ok (.byte b (offset - p.regmap.bufBase b)) else .error .accessWidth
    | none =>
      if p.isReserved offset width then .ok (.reg (.reserved offset width)) else .error .accessWidth

/-- Decoding of a bus transaction: the row is selected by the direction and the offset (30_encoding R69), and a write
to `CMD` by the value written (R68; log 12). -/
def decodeBus (p : Params) : BusTxn → Except BusError Instr
  | .read offset width =>
    match p.target offset width with
    | .ok (.reg t) => .ok (.rd t)
    | .ok (.byte b i) => .ok (.rdb b i)
    | .error e => .error e
  | .write offset width value =>
    match p.target offset width with
    | .ok (.reg (.reg .cmd)) => .ok (decodeCmd (value.setWidth 8))
    | .ok (.reg t) => .ok (.wr t value.toNat)
    | .ok (.byte b i) => .ok (.wrb b i (value.setWidth 8))
    | .error e => .error e

/-- The `CMD` value of a command, from the encoding column of the opcode table; a row that is no `CMD` value has
none (30_encoding R62). -/
def encodeCmd : Instr → Option Byte
  | .clr => some 0b00000000#8
  | .xform => some 0b00000001#8
  | .digest => some 0b00000010#8
  | .xorc => some 0b00000011#8
  | .reserved04 low => some (0b000001#6 ++ low)
  | .reserved08 low => some (0b00001#5 ++ low)
  | .reserved10 low => some (0b0001#4 ++ low)
  | .reserved20 low => some (0b001#3 ++ low)
  | .reserved40 low => some (0b01#2 ++ low)
  | .reserved80 low => some (0b1#1 ++ low)
  | .rd _ | .wr _ _ | .rdb _ _ | .wrb _ _ _ => none
  | .round | .finish => none
  | .encrypt | .decrypt | .loadblk _ | .loadkey _ | .wait | .readout | .feedback => none

/-- The offset of what `RD` or `WR` addresses (20_memory R46). -/
def RegTarget.offset (p : Params) : RegTarget → Nat
  | .reg r => p.regmap.regBase r
  | .reserved offset _ => offset

/-- The width in bits of what `RD` or `WR` addresses. -/
def RegTarget.width (p : Params) : RegTarget → Nat
  | .reg r => r.width p
  | .reserved _ width => width

/-- The width in bits of a transaction (30_encoding R69). -/
def BusTxn.width : BusTxn → Nat
  | .read _ width => width
  | .write _ width _ => width

/-- The write of a value to `CMD` (30_encoding R66, R69). -/
def cmdWrite (p : Params) (v : Byte) : BusTxn := .write p.regmap.cmd 8 v

/-- The one bus transaction of an instruction (30_encoding R66, R67, R69). Engine steps have none, and a
pseudo-instruction that expands to several has none of its own. -/
def encode (p : Params) : Instr → Option BusTxn
  | .rd t => some (.read (t.offset p) (t.width p))
  | .wr t v => some (.write (t.offset p) (t.width p) (BitVec.ofNat (t.width p) v))
  | .rdb b i => some (.read (p.regmap.bufBase b + i) 8)
  | .wrb b i v => some (.write (p.regmap.bufBase b + i) 8 v)
  | .encrypt | .decrypt => (encodeCmd .xform).map (cmdWrite p)
  | .clr => (encodeCmd .clr).map (cmdWrite p)
  | .xform => (encodeCmd .xform).map (cmdWrite p)
  | .digest => (encodeCmd .digest).map (cmdWrite p)
  | .xorc => (encodeCmd .xorc).map (cmdWrite p)
  | .reserved04 low => (encodeCmd (.reserved04 low)).map (cmdWrite p)
  | .reserved08 low => (encodeCmd (.reserved08 low)).map (cmdWrite p)
  | .reserved10 low => (encodeCmd (.reserved10 low)).map (cmdWrite p)
  | .reserved20 low => (encodeCmd (.reserved20 low)).map (cmdWrite p)
  | .reserved40 low => (encodeCmd (.reserved40 low)).map (cmdWrite p)
  | .reserved80 low => (encodeCmd (.reserved80 low)).map (cmdWrite p)
  | .round | .finish => none
  | .loadblk _ | .loadkey _ | .wait | .readout | .feedback => none

/-- The spelling the decoder answers with: no second name of another row's transaction (`WR CMD` is the command it
writes, `ENCRYPT` and `DECRYPT` are `XFORM`; 30_encoding R66, R67), and a written value that fits the register. -/
def Instr.canonical (p : Params) : Instr → Bool
  | .wr t v => (t != .reg .cmd) && v < 2 ^ t.width p
  | .encrypt | .decrypt => false
  | .rd _ | .rdb _ _ | .wrb _ _ _ => true
  | .clr | .xform | .digest | .xorc => true
  | .reserved04 _ | .reserved08 _ | .reserved10 _ | .reserved20 _ | .reserved40 _ | .reserved80 _ => true
  | .round | .finish => true
  | .loadblk _ | .loadkey _ | .wait | .readout | .feedback => true

/-- The instruction the decoder reads from an instruction of `nbits` bits `w`: one 8-bit value written to `CMD`
(30_encoding R60), taken through the bus decoder. -/
def decodeTableWord (nbits w : Nat) : Option Instr :=
  if nbits = 8 ∧ w < 256 then (decodeBus chip (cmdWrite chip (BitVec.ofNat 8 w))).toOption else none

end Sys2Proof
end

