-- ==== Sys2Proof/WellFormed.lean ====
section
/-! DEFINITION. Which parameters a chip may have (92_eei_decisions, "Parameters left OPEN"), and which operands an
instruction may name: indices inside their buffer, reserved offsets that are reserved, loads that fit (20_memory R44,
R46, R47; 43_control R134; 30_encoding R67). -/
namespace Sys2Proof

/-- Where each register and each buffer lies on the map: its offset, and how many byte offsets it takes. -/
def Params.spans (p : Params) : List (Nat × Nat) :=
  Reg.all.map (fun r => (p.regmap.regBase r, bytesOf (r.width p))) ++
    Buf.all.map (fun b => (p.regmap.bufBase b, p.cap b))

/-- The constraints of the OPEN parameters (92_eei_decisions, "Parameters left OPEN"): the widths and the capacity in
their ranges, and no two of the registers and buffers overlapping on the map. -/
abbrev Params.wellFormed (p : Params) : Prop :=
  1 ≤ p.roundsW ∧ 8 ≤ p.lenW ∧ 1 ≤ p.kbufCap ∧ p.kbufCap ≤ 2 ^ p.lenW - 1 ∧
    p.spans.Pairwise (fun x y => overlaps x.1 x.2 y.1 y.2 = false)

/-- A register by name always, an offset only where the map has nothing. -/
def RegTarget.wellFormed (p : Params) : RegTarget → Bool
  | .reg _ => true
  | .reserved offset width => p.isReserved offset width

/-- The instructions whose operands exist on the chip `p`. -/
def Instr.wellFormed (p : Params) : Instr → Bool
  | .rd t => t.wellFormed p
  | .wr t _ => t.wellFormed p
  | .rdb b i => decide (i < p.cap b)
  | .wrb b i _ => decide (i < p.cap b)
  | .loadblk bs => decide (bs.length ≤ Config.ibufCap)
  | .loadkey bs => decide (bs.length ≤ p.kbufCap)
  | .clr | .xform | .digest | .xorc => true
  | .reserved04 _ | .reserved08 _ | .reserved10 _ | .reserved20 _ | .reserved40 _ | .reserved80 _ => true
  | .round | .finish => true
  | .encrypt | .decrypt | .wait | .readout | .feedback => true

end Sys2Proof
end

