-- ==== Sys2Proof/Machine/State.lean ====
section
/-! DEFINITION. The state of one block (10_state R10), the host and the schedule beside it (log 5, log 6), the
reasons a step can stop, and the state after reset (10_state R27). -/
namespace Sys2Proof.Machine

/-- A buffer's contents: offset and byte, offsets strictly rising, no `0x00` listed; an unlisted byte is `0x00`, the
spec's reset contents (10_state R27; log 18). -/
abbrev Memory := List Host.Cell

/-- The canonical form of a buffer's contents. -/
abbrev Memory.wf (m : Memory) : Prop :=
  m.Pairwise (fun c d => c.1 < d.1) ∧ ∀ c ∈ m, c.2 ≠ 0x00#8

/-- No byte is held at or above the buffer's capacity (20_memory R40). -/
abbrev Memory.within (cap : Nat) (m : Memory) : Prop := ∀ c ∈ m, c.1 < cap

/-- One pending line of the host: a script line (30_encoding R66, R67), a raw bus transaction (R69), or the
`WRB IBUF[j], <that byte>` of an expanded `FEEDBACK` (R67). -/
inductive Line where
  | instr (i : Instr)
  | bus (t : BusTxn)
  | wrbLast (j : Nat)
deriving DecidableEq, Repr

/-- Who moves: the host, the engine (00_scope R6), or the reset input (70_reset_and_hazards R170). -/
inductive Turn where
  | host
  | engine
  | reset
deriving DecidableEq, Repr

/-- The machine stops. No fault is a behaviour of the block: both mark a use of a primitive that the spec leaves
undefined and that no state of 10_state R28 reaches. -/
inductive Fault where
  /-- Raised by `MemRead` and `MemWrite` beyond a buffer's capacity, and by `MemWrite` of another number of bytes than
  it names (20_memory R44: undefined). Safe: the block never
  asks for it in a state of R28. -/
  | memBeyondCapacity
  /-- Raised by `take` beyond the digest's 32 bytes (93_implementation_defined U2). Safe: `XFORM` raises
  `BlockTooLarge` first. -/
  | truncationBeyondDigest
deriving DecidableEq, Repr

/-- The model gives no step. -/
inductive Refusal where
  /-- Answered by an arm of `exec` whose instruction has no meaning yet. Safe. -/
  | notModelled (mnemonic : String)
  /-- Answered by the fetch of a raw transaction that the decoder refuses (20_memory R43, U6: "refuse"). Safe. -/
  | badAccess (e : BusError)
  /-- Answered by `RDB`, `WRB` at an index at or above the capacity (43_control R134, U11: "a model that names buffers
  refuses such an index"). Safe. -/
  | bufferIndexBeyondCapacity
  /-- Answered by `RD`, `WR` of a reserved-offset operand that is no reserved offset of the map (20_memory R47). Safe:
  the same access as a raw transaction runs. -/
  | offsetNotReserved
  /-- Answered by `LOADBLK`, `LOADKEY` of more bytes than the buffer holds (30_encoding R67: "n <= 64",
  "m <= KBUF_CAP"). Safe. -/
  | loadBeyondCapacity
  /-- Answered by the XOR unit on operands of unequal length (42_block_xor_combine R121, U3: "refuse"). Safe: no state
  of R28 reaches it. -/
  | xorUnequalLengths
  /-- Answered by `ROUND`, `FINISH` outside their enabling condition (40_feistel_round_engine R86, R91). Safe: `step`
  takes an engine step only where it is enabled. -/
  | engineStepNotEnabled
  /-- Answered by the fetch of a script line `ROUND` or `FINISH`, which the host cannot issue (R86, R91). Safe. -/
  | engineStepFromHost
  /-- Answered by the fetch of a `FEEDBACK` write when the host has read nothing. Safe: an expanded `FEEDBACK` reads
  first. -/
  | nothingReadYet
deriving DecidableEq, Repr

/-- The block, and beside it the host's pending lines, the turns already fixed, and what the host has read. Its two
arguments are the parameters `ROUNDS_W` and `LEN_W` (00_scope R4, 10_state R29); `State` alone has their defaults. -/
structure State (rW : Nat := Config.roundsW) (lW : Nat := Config.lenW) where
  /-- `L`, of length `HALF` (10_state R11; log 4). -/
  l : Bytes
  /-- `R`, of length `HALF` (10_state R11; log 4). -/
  r : Bytes
  /-- `HALF` (10_state R13). -/
  half : BitVec 8
  /-- `RIDX` (10_state R14). -/
  ridx : BitVec rW
  /-- `STATUS` (10_state R15). -/
  status : Byte
  /-- `ROUNDS` (10_state R17). -/
  rounds : BitVec rW
  /-- `ILEN` (10_state R18). -/
  ilen : BitVec lW
  /-- `KLEN` (10_state R19). -/
  klen : BitVec lW
  /-- `OLEN` (10_state R20). -/
  olen : BitVec lW
  /-- `IBUF` (10_state R21). -/
  ibuf : Memory
  /-- `KBUF` (10_state R22). -/
  kbuf : Memory
  /-- `OBUF` (10_state R23). -/
  obuf : Memory
  /-- The model's own: the host's pending lines, in the order the host issues them (20_memory R48; log 5). -/
  host : List Line
  /-- The model's own: the turns already fixed, next first (20_memory R48; log 6). -/
  sched : List Turn
  /-- The model's own: the values `RD` and `RDB` have returned to the host, oldest first (43_control R132; log 7). -/
  responses : List Nat
deriving DecidableEq, Repr

/-- The state after reset (10_state R27), at each width of the registers. `L` and `R` are unspecified there; the model
holds the one byte string of length `HALF` = 0 (log 4). No line is pending, no turn fixed, nothing read (logs 5 to 7). -/
def State.resetOf (rW lW : Nat) : State rW lW where
  l := []
  r := []
  half := 0
  ridx := 0
  status := 0x00#8
  rounds := 0
  ilen := 0
  klen := 0
  olen := 0
  ibuf := []
  kbuf := []
  obuf := []
  host := []
  sched := []
  responses := []

/-- The state after reset, at the default widths. -/
def State.reset : State := .resetOf Config.roundsW Config.lenW

/-- The outcome of a step of this machine. -/
abbrev Result (rW : Nat := Config.roundsW) (lW : Nat := Config.lenW) := Host.Outcome (State rW lW) Fault Refusal

end Sys2Proof.Machine
end

