-- ==== Sys2Proof/Machine/Flags.lean ====
section
/-! DEFINITION. The fields of `STATUS` and the error codes: the only flags there are (10_state R15, R30; 60_exceptions
R146). -/
namespace Sys2Proof.Machine
variable {rW lW : Nat}

/-- The values of `STATUS.PHASE` (10_state R15). -/
inductive Phase where
  | idle | busy | done | error
deriving DecidableEq, Repr

/-- The values of `STATUS.ERR` that are ever produced (10_state R15, 60_exceptions R146). -/
inductive ErrCode where
  | none | invalidInputLength | blockTooLarge | resourceExhausted | cmdIllegal
deriving DecidableEq, Repr

/-- The two bits of a phase (10_state R15). -/
def Phase.code : Phase → BitVec 2
  | .idle => 0
  | .busy => 1
  | .done => 2
  | .error => 3

/-- The three bits of an error code (60_exceptions R146). -/
def ErrCode.code : ErrCode → BitVec 3
  | .none => 0
  | .invalidInputLength => 1
  | .blockTooLarge => 2
  | .resourceExhausted => 3
  | .cmdIllegal => 4

/-- `STATUS[1:0]`. -/
def statusPhase (b : Byte) : BitVec 2 := b.extractLsb' 0 2
/-- `STATUS[4:2]`. -/
def statusErr (b : Byte) : BitVec 3 := b.extractLsb' 2 3
/-- `STATUS[7:5]`, reserved. -/
def statusReserved (b : Byte) : BitVec 3 := b.extractLsb' 5 3

/-- `STATUS` of its three fields. -/
def packStatus (reserved : BitVec 3) (err : BitVec 3) (phase : BitVec 2) : Byte := reserved ++ err ++ phase

/-- `STATUS.PHASE <- ph`: the other fields keep their bits. -/
def withPhase (ph : Phase) (b : Byte) : Byte := packStatus (statusReserved b) (statusErr b) ph.code
/-- `STATUS.ERR <- e`: the other fields keep their bits. -/
def withErr (e : ErrCode) (b : Byte) : Byte := packStatus (statusReserved b) e.code (statusPhase b)

/-- The byte a host reads: `PHASE | ERR << 2`, bits 7:5 zero (43_control R132). -/
def statusRead (b : Byte) : Byte := packStatus 0 (statusErr b) (statusPhase b)

/-- `STATUS.PHASE = ph`. -/
def State.phaseIs (s : State rW lW) (ph : Phase) : Bool := statusPhase s.status == ph.code

/-- `STATUS.PHASE = BUSY`. -/
def State.busy (s : State rW lW) : Bool := s.phaseIs .busy

/-- `STATUS.PHASE <- ph`. -/
def State.setPhase (ph : Phase) (s : State rW lW) : State rW lW := { s with status := withPhase ph s.status }
/-- `STATUS.ERR <- e`. -/
def State.setErr (e : ErrCode) (s : State rW lW) : State rW lW := { s with status := withErr e s.status }

end Sys2Proof.Machine
end

