-- ==== Sys2Proof/Machine/Ops.lean ====
section
/-! DEFINITION. The shared operations: bytes of a buffer, `MemRead` and `MemWrite`, registers, taking an error and
leaving it, the write lock, the host's side, and whose turn it is. -/
namespace Sys2Proof.Machine
variable {rW lW : Nat}

/-! ### Bytes of a buffer -/

/-- One byte of a buffer; an unlisted one is `0x00` (10_state R27; log 18). -/
def Memory.read : Memory → Nat → Byte
  | [], _ => 0x00#8
  | (a, b) :: m, x => if x < a then 0x00#8 else if a = x then b else Memory.read m x

/-- A write of one byte, keeping the canonical form. -/
def Memory.write : Memory → Nat → Byte → Memory
  | [], x, v => if v = 0x00#8 then [] else [(x, v)]
  | (a, b) :: m, x, v =>
    if x < a then if v = 0x00#8 then (a, b) :: m else (x, v) :: (a, b) :: m
    else if a = x then if v = 0x00#8 then m else (a, v) :: m
    else (a, b) :: Memory.write m x v

/-- The `n` bytes from offset `a` on, offset `a` first. -/
def Memory.readBytes (m : Memory) (a : Nat) : Nat → Bytes
  | 0 => []
  | n + 1 => m.read a :: m.readBytes (a + 1) n

/-- The bytes of `v` written from offset `a` on. -/
def Memory.writeBytes (m : Memory) (a : Nat) : Bytes → Memory
  | [] => m
  | b :: v => (m.write a b).writeBytes (a + 1) v

/-! ### Steps that can stop -/

/-- Why a computation has no next state. -/
inductive Stop where
  | fault (f : Fault)
  | refusal (r : Refusal)
deriving DecidableEq, Repr

/-- The outcome of a step computed with stops. -/
def settle : Except Stop (State rW lW) → Result rW lW
  | .ok s => .next s
  | .error (.fault f) => .fault f
  | .error (.refusal r) => .refused r

/-- `MemRead(S, addr, n)` of a buffer of capacity `cap`: undefined beyond it (20_memory R44; log 13). -/
def memRead (cap : Nat) (m : Memory) (addr n : Nat) : Except Stop Bytes :=
  if addr + n ≤ cap then .ok (m.readBytes addr n) else .error (.fault .memBeyondCapacity)

/-- `MemWrite(S, addr, n, v)` of a buffer of capacity `cap`: defined where `len(v) = n` and the bytes lie inside it
(20_memory R44; log 13). -/
def memWrite (cap : Nat) (m : Memory) (addr n : Nat) (v : Bytes) : Except Stop Memory :=
  if v.length = n ∧ addr + n ≤ cap then .ok (m.writeBytes addr v) else .error (.fault .memBeyondCapacity)

/-- `take(n, a)`, defined only for `n <= len(a)` (00_scope section 7, 93_implementation_defined U2). -/
def takeBytes (n : Nat) (a : Bytes) : Except Stop Bytes :=
  if n ≤ a.length then .ok (a.take n) else .error (.fault .truncationBeyondDigest)

/-! ### Buffers and registers -/

/-- The contents of a buffer. -/
def State.buf (s : State rW lW) : Buf → Memory
  | .ibuf => s.ibuf
  | .kbuf => s.kbuf
  | .obuf => s.obuf

/-- A host's read of a register: the unsigned number it holds, so zero-extended on a bus of any width (43_control R132;
`CMD` reads 0, 10_state R16). -/
def State.readReg (s : State rW lW) : Reg → Nat
  | .cmd => 0
  | .status => (statusRead s.status).toNat
  | .half => s.half.toNat
  | .rounds => s.rounds.toNat
  | .ridx => s.ridx.toNat
  | .ilen => s.ilen.toNat
  | .klen => s.klen.toNat
  | .olen => s.olen.toNat

/-- A host's write of a register that is not `CMD`, truncated to the register's width; read-only registers ignore it
(43_control R133, 20_memory R47). -/
def State.writeReg (s : State rW lW) (v : Nat) : Reg → State rW lW
  | .rounds => { s with rounds := BitVec.ofNat rW v }
  | .ilen => { s with ilen := BitVec.ofNat lW v }
  | .klen => { s with klen := BitVec.ofNat lW v }
  | .cmd | .status | .half | .ridx | .olen => s

/-- A host's write of a buffer byte; `OBUF` ignores it (43_control R134, 20_memory R47). -/
def State.writeBuf (s : State rW lW) (i : Nat) (v : Byte) : Buf → State rW lW
  | .ibuf => { s with ibuf := s.ibuf.write i v }
  | .kbuf => { s with kbuf := s.kbuf.write i v }
  | .obuf => s

/-! ### Taking an error, and leaving it -/

/-- `raise E` (60_exceptions R149): `STATUS.PHASE <- ERROR`, `STATUS.ERR <- code(E)`, nothing saved, nothing else
changed. -/
def State.raise (e : ErrCode) (s : State rW lW) : State rW lW := (s.setErr e).setPhase .error

/-- The end of a command accepted without error: `STATUS.ERR <- None`, `STATUS.PHASE <- ph`. It is also the only
return from the `ERROR` phase: nothing is restored, since nothing was saved (60_exceptions R152). -/
def State.accept (ph : Phase) (s : State rW lW) : State rW lW := (s.setErr .none).setPhase ph

/-- The write lock: while `BUSY` a host write changes nothing and raises nothing (20_memory R52). -/
def writeLocked (s : State rW lW) (f : State rW lW → Result rW lW) : Result rW lW := if s.busy then .next s else f s

/-- Reset (70_reset_and_hazards R170): every piece of the block's state takes its reset value; what the host still
has to issue, has read, and the turns to come are not the block's (log 8). -/
def State.applyReset (s : State rW lW) : State rW lW :=
  { State.resetOf rW lW with host := s.host, sched := s.sched, responses := s.responses }

/-! ### The host's side -/

/-- A value returned to the host (43_control R132, R134; log 7). -/
def State.respond (v : Nat) (s : State rW lW) : State rW lW := { s with responses := s.responses ++ [v] }

/-- Lines put before the host's pending ones: the expansion of a pseudo-instruction (30_encoding R67; log 10). -/
def State.issue (ls : List Line) (s : State rW lW) : State rW lW := { s with host := ls ++ s.host }

/-- The instruction of a pending line: a script line that the host can issue, the decoding of a raw transaction, or
the write of the byte the host read last (30_encoding R66, R67, R69). -/
def resolveLine (p : Params) (s : State rW lW) : Line → Except Refusal Instr
  | .instr i => if i.hostIssued then .ok i else .error .engineStepFromHost
  | .bus t =>
    match decodeBus p t with
    | .ok i => .ok i
    | .error e => .error (.badAccess e)
  | .wrbLast j =>
    match s.responses.getLast? with
    | some v => .ok (.wrb .ibuf j (BitVec.ofNat 8 v))
    | none => .error .nothingReadYet

/-! ### Whose turn it is -/

/-- The enabled engine step, if there is one (10_state R14): while `BUSY`, `ROUND` if `RIDX < ROUNDS` and `FINISH` if
`RIDX = ROUNDS`. -/
def State.engineStep (s : State rW lW) : Option Instr :=
  if s.busy then
    if s.ridx < s.rounds then some .round
    else if s.ridx = s.rounds then some .finish
    else none
  else none

/-- The next turn: the one fixed in `sched`, else the engine while a step of it is enabled, else the host (log 6). -/
def State.turn (s : State rW lW) : Turn :=
  match s.sched with
  | t :: _ => t
  | [] => if s.engineStep.isSome then .engine else .host

/-- The state with the next fixed turn used up. -/
def State.dropTurn (s : State rW lW) : State rW lW := { s with sched := s.sched.tail }

/-- The state with the host's next line taken off. -/
def State.dropLine (s : State rW lW) : State rW lW := { s with host := s.host.tail }

end Sys2Proof.Machine
end

