-- ==== Sys2Proof/Machine/Operands.lean ====
section
/-! DEFINITION. Operand sourcing: a command carries no operand, its operands are the host-owned registers and buffers
when it is accepted (30_encoding R61). -/
namespace Sys2Proof.Machine
variable {rW lW : Nat}

/-- `ILEN` as the unsigned length it holds (10_state R18). -/
def State.blockLen (s : State rW lW) : Nat := s.ilen.toNat
/-- `KLEN` as the unsigned length it holds (10_state R19). -/
def State.keyLen (s : State rW lW) : Nat := s.klen.toNat
/-- `HALF` as the unsigned length it holds (10_state R13). -/
def State.halfLen (s : State rW lW) : Nat := s.half.toNat

/-- `MemRead(IBUF, addr, n)` (20_memory R44). -/
def readIbuf (s : State rW lW) (addr n : Nat) : Except Stop Bytes := memRead Config.ibufCap s.ibuf addr n

/-- The message of `DIGEST`: `MemRead(IBUF, 0, ILEN)` (30_encoding R61). -/
def messageOperand (s : State rW lW) : Except Stop Bytes := readIbuf s 0 s.blockLen

/-- The key: `MemRead(KBUF, 0, KLEN)`, read afresh at each use (30_encoding R61, 10_state R22). -/
def keyOperand (p : Params) (s : State rW lW) : Except Stop Bytes := memRead p.kbufCap s.kbuf 0 s.keyLen

/-- The first half of the input, `MemRead(IBUF, 0, ILEN div 2)` (30_encoding R61, 20_memory R41). -/
def firstHalf (s : State rW lW) : Except Stop Bytes := readIbuf s 0 (s.blockLen / 2)

/-- The second half of the input, `MemRead(IBUF, ILEN div 2, ILEN div 2)` (30_encoding R61, 20_memory R41). -/
def secondHalf (s : State rW lW) : Except Stop Bytes := readIbuf s (s.blockLen / 2) (s.blockLen / 2)

/-- The result operand: `OLEN` and the whole of `OBUF` in one step, the result first and `0x00` to the end (30_encoding
R61, 10_state R23). -/
def storeResult (result : Bytes) (s : State rW lW) : Except Stop (State rW lW) := do
  let n := result.length
  let m ← memWrite Config.obufCap s.obuf 0 n result
  let m ← memWrite Config.obufCap m n (Config.obufCap - n) (zeros (Config.obufCap - n))
  return { s with olen := BitVec.ofNat lW n, obuf := m }

end Sys2Proof.Machine
end

