-- ==== Sys2Proof/Machine/Hash.lean ====
section
/-! DEFINITION. The unit hash_round_function_wrapper and the command `DIGEST` (spec file 41). -/
namespace Sys2Proof.Machine
variable {rW lW : Nat}

/-- `digest(message, key) = HASH(message ‖ key)`: message first, key second, nothing between, the whole digest
(41_hash_round_function_wrapper R110 to R112). -/
def digest (hash : Bytes → Vector Byte Config.digestLen) (message key : Bytes) : Bytes :=
  (hash (message ++ key)).toList

/-- The step of `DIGEST` when the phase is not `BUSY` (R115). -/
def digestCommand (p : Params) (s : State rW lW) : Except Stop (State rW lW) :=
  if s.blockLen > Config.ibufCap then .ok (s.raise .resourceExhausted)
  else if s.keyLen > p.kbufCap then .ok (s.raise .resourceExhausted)
  else do
    let m ← messageOperand s
    let k ← keyOperand p s
    let s ← storeResult (digest p.hash m k) s
    return s.accept .done

/-- `DIGEST` at the parameters `p` (R115); ignored while `BUSY` (20_memory R52). -/
def digestAt (p : Params) (s : State rW lW) : Result rW lW := writeLocked s fun s => settle (digestCommand p s)

/-- `DIGEST` (R115). -/
def execDigest (s : State) : Result := digestAt chip s

end Sys2Proof.Machine
end

