-- ==== Sys2Proof/Machine/Xor.lean ====
section
/-! DEFINITION. The unit block_xor_combine and the command `XORC` (spec file 42). -/
namespace Sys2Proof.Machine
variable {rW lW : Nat}

/-- `a ^ b`, byte by byte (42_block_xor_combine R120); of use only on equal lengths. -/
def xorBytes (a b : Bytes) : Bytes := List.zipWith (fun x y => x ^^^ y) a b

/-- `xor_combine(a, b)`: a byte string for operands of the same length, and no value otherwise (R120, R121, U3). -/
def xorCombine (a b : Bytes) : Except Stop Bytes :=
  if a.length = b.length then .ok (xorBytes a b) else .error (.refusal .xorUnequalLengths)

/-- The step of `XORC` when the phase is not `BUSY` (R124). -/
def xorCommand (s : State rW lW) : Except Stop (State rW lW) :=
  if s.blockLen % 2 = 1 then .ok (s.raise .invalidInputLength)
  else if s.blockLen > Config.ibufCap then .ok (s.raise .resourceExhausted)
  else do
    let a ← firstHalf s
    let b ← secondHalf s
    let c ← xorCombine a b
    let s ← storeResult c s
    return s.accept .done

/-- `XORC` (R124); ignored while `BUSY` (20_memory R52). -/
def execXorc (s : State rW lW) : Result rW lW := writeLocked s fun s => settle (xorCommand s)

end Sys2Proof.Machine
end

