-- ==== Sys2Proof/Machine/Feistel.lean ====
section
/-! DEFINITION. The unit feistel_round_engine: the function `transform`, the accept step of `XFORM`, and the engine
steps `ROUND` and `FINISH` (spec file 40). -/
namespace Sys2Proof.Machine
variable {rW lW : Nat}

/-! ### The function (R80, R101) -/

/-- One round of `transform` on a pair of halves of `h` bytes (40_feistel_round_engine R80, R101):
`(L, R)` becomes `(R, L ^ take(h, HASH(R ‖ K)))`. -/
def feistelRound (hash : Bytes → Vector Byte Config.digestLen) (key : Bytes) (h : Nat) (x : Bytes × Bytes) :
    Bytes × Bytes :=
  (x.2, xorBytes x.1 ((digest hash x.2 key).take h))

/-- The halves `(L_i, R_i)` after `i` rounds from `(L_0, R_0)` (R80, R101). -/
def feistelHalves (hash : Bytes → Vector Byte Config.digestLen) (key : Bytes) (h : Nat) (x : Bytes × Bytes) :
    Nat → Bytes × Bytes
  | 0 => x
  | i + 1 => feistelRound hash key h (feistelHalves hash key h x i)

/-- `transform(B, K, n)` (R80): the two length errors, else `R_n ‖ L_n`. The machine never calls it: it is what the
machine's steps are compared with (R92). -/
def transform (hash : Bytes → Vector Byte Config.digestLen) (block key : Bytes) (n : Nat) : Except ErrCode Bytes :=
  if block.length % 2 = 1 then .error .invalidInputLength
  else if block.length / 2 > Config.digestLen then .error .blockTooLarge
  else
    let h := block.length / 2
    let x := feistelHalves hash key h (block.take h, block.drop h) n
    .ok (x.2 ++ x.1)

/-! ### The steps -/

/-- The accept step of `XFORM` when the phase is not `BUSY` (R81 to R85): the three checks in order, then the split. -/
def xformAccept (p : Params) (s : State rW lW) : Except Stop (State rW lW) :=
  if s.blockLen % 2 = 1 then .ok (s.raise .invalidInputLength)
  else if s.blockLen / 2 > Config.digestLen then .ok (s.raise .blockTooLarge)
  else if s.keyLen > p.kbufCap then .ok (s.raise .resourceExhausted)
  else do
    let l ← firstHalf s
    let r ← secondHalf s
    return { s with half := BitVec.ofNat 8 (s.blockLen / 2), l := l, r := r, ridx := 0 }.accept .busy

/-- `ROUND` (R86 to R90): `h = HASH(R ‖ key)`, truncated to `HALF` bytes, xored into `L`; then `L` and `R` at once. -/
def roundStep (p : Params) (s : State rW lW) : Except Stop (State rW lW) := do
  let key ← keyOperand p s
  let t ← takeBytes s.halfLen (digest p.hash s.r key)
  let newR ← xorCombine s.l t
  return { s with l := s.r, r := newR, ridx := s.ridx + 1 }

/-- `FINISH` (R91): `OLEN <- 2 * HALF`, `R` then `L` then zeros into `OBUF`, `PHASE <- DONE`; `ERR` is not written. -/
def finishStep (s : State rW lW) : Except Stop (State rW lW) := do
  let half := s.halfLen
  let m ← memWrite Config.obufCap s.obuf 0 half s.r
  let m ← memWrite Config.obufCap m half half s.l
  let m ← memWrite Config.obufCap m (2 * half) (Config.obufCap - 2 * half) (zeros (Config.obufCap - 2 * half))
  return { s with olen := BitVec.ofNat lW (2 * half), obuf := m }.setPhase .done

/-- `XFORM` at the parameters `p`: the accept step (R81), ignored while `BUSY` (20_memory R52). -/
def xformAt (p : Params) (s : State rW lW) : Result rW lW := writeLocked s fun s => settle (xformAccept p s)

/-- `ROUND` at the parameters `p`, where it is enabled: `BUSY` and `RIDX < ROUNDS` (R86). -/
def roundAt (p : Params) (s : State rW lW) : Result rW lW :=
  if s.engineStep = some .round then settle (roundStep p s) else .refused .engineStepNotEnabled

/-- `XFORM`, the accept step (R81). -/
def execXform (s : State) : Result := xformAt chip s

/-- `ROUND` (R86). -/
def execRound (s : State) : Result := roundAt chip s

/-- `FINISH` where it is enabled: `BUSY` and `RIDX = ROUNDS` (R91). -/
def execFinish (s : State rW lW) : Result rW lW :=
  if s.engineStep = some .finish then settle (finishStep s) else .refused .engineStepNotEnabled

end Sys2Proof.Machine
end

