-- ==== Sys2Proof/Machine/Control.lean ====
section
/-! DEFINITION. `CLR`, the reserved commands, and the dispatch on a value written to `CMD` (43_control R130, R131;
30_encoding R68). -/
namespace Sys2Proof.Machine
variable {rW lW : Nat}

/-- The step of `CLR` when the phase is not `BUSY` (43_control R130). `L` and `R` become unspecified; the model holds
the one byte string of length `HALF` = 0 (log 4). -/
def clearCommand (s : State rW lW) : Except Stop (State rW lW) := do
  let m ← memWrite Config.obufCap s.obuf 0 Config.obufCap (zeros Config.obufCap)
  return { s with half := 0, ridx := 0, olen := 0, obuf := m, l := [], r := [] }.accept .idle

/-- The step of a reserved command when the phase is not `BUSY`: `raise CmdIllegal` (43_control R131). -/
def reservedCommand (s : State rW lW) : Result rW lW := writeLocked s fun s => .next (s.raise .cmdIllegal)

/-- `CLR` (43_control R130); ignored while `BUSY`. -/
def execClr (s : State rW lW) : Result rW lW := writeLocked s fun s => settle (clearCommand s)

/-- Reserved values `0x04` to `0x07` (43_control R131). -/
def execReserved04 (s : State rW lW) : Result rW lW := reservedCommand s
/-- Reserved values `0x08` to `0x0F` (43_control R131). -/
def execReserved08 (s : State rW lW) : Result rW lW := reservedCommand s
/-- Reserved values `0x10` to `0x1F` (43_control R131). -/
def execReserved10 (s : State rW lW) : Result rW lW := reservedCommand s
/-- Reserved values `0x20` to `0x3F` (43_control R131). -/
def execReserved20 (s : State rW lW) : Result rW lW := reservedCommand s
/-- Reserved values `0x40` to `0x7F` (43_control R131). -/
def execReserved40 (s : State rW lW) : Result rW lW := reservedCommand s
/-- Reserved values `0x80` to `0xFF` (43_control R131). -/
def execReserved80 (s : State rW lW) : Result rW lW := reservedCommand s

/-- A write of `v` to `CMD` (30_encoding R68). -/
def acceptCommand (p : Params) (v : Byte) (s : State rW lW) : Result rW lW :=
  writeLocked s fun s =>
    if v = 0x00#8 then settle (clearCommand s)
    else if v = 0x01#8 then settle (xformAccept p s)
    else if v = 0x02#8 then settle (digestCommand p s)
    else if v = 0x03#8 then settle (xorCommand s)
    else .next (s.raise .cmdIllegal)

end Sys2Proof.Machine
end

