-- ==== Sys2Proof/Machine/Bus.lean ====
section
/-! DEFINITION. The host access operations `RD`, `WR`, `RDB`, `WRB` (43_control R132 to R134; 20_memory R47, R52). -/
namespace Sys2Proof.Machine
variable {rW lW : Nat}

/-- `RD` on the chip `p`: a register's value, or 0 of a reserved offset, in every phase (43_control R132,
20_memory R47, R53). -/
def readTarget (p : Params) (t : RegTarget) (s : State rW lW) : Result rW lW :=
  match t with
  | .reg r => .next (s.respond (s.readReg r))
  | .reserved offset width =>
    if p.isReserved offset width then .next (s.respond 0) else .refused .offsetNotReserved

/-- `WR` on the chip `p`: `CMD` decodes `v[7:0]`, the operand registers take the value truncated, everything else
ignores it, and all of it is ignored while `BUSY` (43_control R133, 20_memory R47, R52). -/
def writeTarget (p : Params) (t : RegTarget) (v : Nat) (s : State rW lW) : Result rW lW :=
  match t with
  | .reg .cmd => acceptCommand p (BitVec.ofNat 8 v) s
  | .reg r => writeLocked s fun s => .next (s.writeReg v r)
  | .reserved offset width => if p.isReserved offset width then .next s else .refused .offsetNotReserved

/-- `RDB` on the chip `p` (43_control R134, U11). -/
def readByte (p : Params) (b : Buf) (i : Nat) (s : State rW lW) : Result rW lW :=
  if i < p.cap b then .next (s.respond ((s.buf b).read i).toNat)
  else .refused .bufferIndexBeyondCapacity

/-- `WRB` on the chip `p` (43_control R134, U11). -/
def writeByte (p : Params) (b : Buf) (i : Nat) (v : Byte) (s : State rW lW) : Result rW lW :=
  if i < p.cap b then writeLocked s fun s => .next (s.writeBuf i v b)
  else .refused .bufferIndexBeyondCapacity

/-- `RD` (43_control R132). -/
def execRd (t : RegTarget) (s : State) : Result := readTarget chip t s
/-- `WR` (43_control R133). -/
def execWr (t : RegTarget) (v : Nat) (s : State) : Result := writeTarget chip t v s
/-- `RDB` (43_control R134). -/
def execRdb (b : Buf) (i : Nat) (s : State) : Result := readByte chip b i s
/-- `WRB` (43_control R134). -/
def execWrb (b : Buf) (i : Nat) (v : Byte) (s : State) : Result := writeByte chip b i v s

end Sys2Proof.Machine
end

