-- ==== Sys2Proof/Machine/Script.lean ====
section
/-! DEFINITION. The pseudo-instructions (30_encoding R67): each is its expansion, put before the host's pending
lines; every transaction of it is a step of its own (log 10). -/
namespace Sys2Proof.Machine
variable {rW lW : Nat}

/-- `WRB buf[i], b_0`, `WRB buf[i+1], b_1`, and so on, in rising order (30_encoding R66). -/
def writeLines (b : Buf) (i : Nat) : Bytes → List Line
  | [] => []
  | v :: bs => .instr (.wrb b i v) :: writeLines b (i + 1) bs

/-- `RDB buf[i]` and the `n - 1` after it, in rising order (30_encoding R66). -/
def readLines (b : Buf) (i : Nat) : Nat → List Line
  | 0 => []
  | n + 1 => .instr (.rdb b i) :: readLines b (i + 1) n

/-- `RDB OBUF[j]` then `WRB IBUF[j], <that byte>`, from `j` = `i` on, `n` times (30_encoding R67). -/
def copyLines (i : Nat) : Nat → List Line
  | 0 => []
  | n + 1 => .instr (.rdb .obuf i) :: .wrbLast i :: copyLines (i + 1) n

/-- The expansion of `LOADBLK` (30_encoding R67). -/
def loadBlockLines (bs : Bytes) : List Line :=
  writeLines .ibuf 0 bs ++ [.instr (.wr (.reg .ilen) bs.length)]

/-- The expansion of `LOADKEY` (30_encoding R67). -/
def loadKeyLines (bs : Bytes) : List Line :=
  writeLines .kbuf 0 bs ++ [.instr (.wr (.reg .klen) bs.length)]

/-- The expansion of `FEEDBACK` for a result of `OLEN` bytes (30_encoding R67). -/
def feedbackLines (olen : Nat) : List Line := copyLines 0 olen ++ [.instr (.wr (.reg .ilen) olen)]

/-- `LOADBLK` on at most `IBUF_CAP` bytes (30_encoding R67). -/
def execLoadblk (bs : Bytes) (s : State rW lW) : Result rW lW :=
  if bs.length ≤ Config.ibufCap then .next (s.issue (loadBlockLines bs)) else .refused .loadBeyondCapacity

/-- `LOADKEY` at the parameters `p`, on at most `KBUF_CAP` bytes (30_encoding R67). -/
def loadkeyAt (p : Params) (bs : Bytes) (s : State rW lW) : Result rW lW :=
  if bs.length ≤ p.kbufCap then .next (s.issue (loadKeyLines bs)) else .refused .loadBeyondCapacity

/-- `LOADKEY` (30_encoding R67). -/
def execLoadkey (bs : Bytes) (s : State) : Result := loadkeyAt chip bs s

/-- `ENCRYPT` is `XFORM` (30_encoding R67, 40_feistel_round_engine R99). -/
def execEncrypt (s : State) : Result := execXform s

/-- `DECRYPT` is `XFORM` (30_encoding R67, 40_feistel_round_engine R99). -/
def execDecrypt (s : State) : Result := execXform s

/-- `WAIT`: one `RD STATUS`, and again while it reads `BUSY` (30_encoding R67, 43_control R135). -/
def execWait (s : State rW lW) : Result rW lW :=
  let s' := s.respond (s.readReg .status)
  .next (if s.busy then s'.issue [.instr .wait] else s')

/-- `READOUT`: `RD OLEN`, then an `RDB` of each byte of the length it read (30_encoding R67). -/
def execReadout (s : State rW lW) : Result rW lW :=
  .next ((s.respond (s.readReg .olen)).issue (readLines .obuf 0 s.olen.toNat))

/-- `FEEDBACK`: the copy of the `OLEN` result bytes back to `IBUF`, and `ILEN` (30_encoding R67; log 10). -/
def execFeedback (s : State rW lW) : Result rW lW := .next (s.issue (feedbackLines s.olen.toNat))

end Sys2Proof.Machine
end

