-- ==== Sys2Proof/Machine/Dispatch.lean ====
section
/-! DEFINITION. The meaning of each instruction: one direct call per constructor. -/
namespace Sys2Proof.Machine

def exec (i : Instr) (s : State) : Host.Outcome State Fault Refusal :=
  match i with
  -- commands written to CMD (spec files 40 to 43)
  | .clr => Sys2Proof.Machine.execClr s
  | .xform => Sys2Proof.Machine.execXform s
  | .digest => Sys2Proof.Machine.execDigest s
  | .xorc => Sys2Proof.Machine.execXorc s
  -- reserved command values
  | .reserved04 _ => Sys2Proof.Machine.execReserved04 s
  | .reserved08 _ => Sys2Proof.Machine.execReserved08 s
  | .reserved10 _ => Sys2Proof.Machine.execReserved10 s
  | .reserved20 _ => Sys2Proof.Machine.execReserved20 s
  | .reserved40 _ => Sys2Proof.Machine.execReserved40 s
  | .reserved80 _ => Sys2Proof.Machine.execReserved80 s
  -- host accesses
  | .rd t => Sys2Proof.Machine.execRd t s
  | .wr t v => Sys2Proof.Machine.execWr t v s
  | .rdb b k => Sys2Proof.Machine.execRdb b k s
  | .wrb b k v => Sys2Proof.Machine.execWrb b k v s
  -- engine steps
  | .round => Sys2Proof.Machine.execRound s
  | .finish => Sys2Proof.Machine.execFinish s
  -- pseudo-instructions
  | .encrypt => Sys2Proof.Machine.execEncrypt s
  | .decrypt => Sys2Proof.Machine.execDecrypt s
  | .loadblk bs => Sys2Proof.Machine.execLoadblk bs s
  | .loadkey bs => Sys2Proof.Machine.execLoadkey bs s
  | .wait => Sys2Proof.Machine.execWait s
  | .readout => Sys2Proof.Machine.execReadout s
  | .feedback => Sys2Proof.Machine.execFeedback s

end Sys2Proof.Machine
end

