-- ==== Sys2Proof/Machine/Fetch.lean ====
section
/-! DEFINITION. The step relation with its parameters as arguments (00_scope R4, 10_state R29), and what one turn of each
agent runs (00_scope R6, 20_memory R48). -/
namespace Sys2Proof.Machine
variable {rW lW : Nat}

/-- The meaning of each instruction at the parameters `p`. `exec` is this at the defaults. -/
def execAt (p : Params) (i : Instr) (s : State p.roundsW p.lenW) : Result p.roundsW p.lenW :=
  match i with
  | .clr => execClr s
  | .xform => xformAt p s
  | .digest => digestAt p s
  | .xorc => execXorc s
  | .reserved04 _ => execReserved04 s
  | .reserved08 _ => execReserved08 s
  | .reserved10 _ => execReserved10 s
  | .reserved20 _ => execReserved20 s
  | .reserved40 _ => execReserved40 s
  | .reserved80 _ => execReserved80 s
  | .rd t => readTarget p t s
  | .wr t v => writeTarget p t v s
  | .rdb b k => readByte p b k s
  | .wrb b k v => writeByte p b k v s
  | .round => roundAt p s
  | .finish => execFinish s
  | .encrypt => xformAt p s
  | .decrypt => xformAt p s
  | .loadblk bs => execLoadblk bs s
  | .loadkey bs => loadkeyAt p bs s
  | .wait => execWait s
  | .readout => execReadout s
  | .feedback => execFeedback s

/-- A host turn: the next pending line is taken off and run by `run`; with none pending nothing happens (log 9). -/
def hostTurn (p : Params) (run : Instr → State rW lW → Result rW lW) (s : State rW lW) : Result rW lW :=
  match s.host with
  | [] => .next s
  | ln :: _ =>
    match resolveLine p s ln with
    | .ok i => run i s.dropLine
    | .error e => .refused e

/-- An engine turn: the enabled step, or nothing where none is enabled (10_state R14; log 9). -/
def engineTurn (run : Instr → State rW lW → Result rW lW) (s : State rW lW) : Result rW lW :=
  match s.engineStep with
  | some i => run i s
  | none => .next s

/-- One step of a machine whose instructions are run by `run`: the agent whose turn it is moves once, atomically
(20_memory R48, R51). -/
def stepWith (p : Params) (run : Instr → State rW lW → Result rW lW) (s : State rW lW) : Result rW lW :=
  match s.turn with
  | .reset => .next s.dropTurn.applyReset
  | .engine => engineTurn run s.dropTurn
  | .host => hostTurn p run s.dropTurn

/-- The step relation at the parameters `p` (10_state R29). -/
def stepAt (p : Params) (s : State p.roundsW p.lenW) : Result p.roundsW p.lenW := stepWith p (execAt p) s

end Sys2Proof.Machine
end

