-- ==== Sys2Proof/Machine/Step.lean ====
section
/-! DEFINITION. One step of the machine: one turn of one agent (00_scope R6, 20_memory R48). -/
namespace Sys2Proof.Machine

/-- One step of the chip: `stepAt` at the default parameters. -/
def step (s : State) : Host.Outcome State Fault Refusal := stepWith chip exec s

/-- The state in which the host's next move, and the very next step, is the write of the 8-bit command `w` to `CMD`
(log 5). The only format with bits is `CMD8`, of 8 bits (30_encoding R60). -/
def State.withFetchWord (s : State) (nbits w : Nat) : State :=
  { s with
    host := .bus (cmdWrite chip (BitVec.ofNat 8 (w % 2 ^ nbits))) :: s.host
    sched := .host :: s.sched }

end Sys2Proof.Machine
end

