-- ==== Sys2Proof/Safety.lean ====
section
/-! DEFINITION. What claims are stated in: the invariants of 10_state R28, the host-owned state, the engine-owned
state, and runs of the engine alone. -/
namespace Sys2Proof.Safety
open Sys2Proof.Machine
variable {rW lW : Nat}

/-- 10_state R28 items 1 and 5, and R15's "5 to 7 are never produced": `ERR` is not 0 exactly in the `ERROR` phase, is
a code of R146, and `STATUS[7:5]` is 0. -/
abbrev StatusLegal (s : State rW lW) : Prop :=
  (statusErr s.status ≠ 0 ↔ s.phaseIs .error) ∧ statusErr s.status ≤ 4 ∧ statusReserved s.status = 0

/-- 10_state R28 item 2 and R11: `HALF <= 32`, and `L` and `R` are byte strings of length `HALF`. -/
abbrev HalvesSized (s : State rW lW) : Prop :=
  s.halfLen ≤ Config.digestLen ∧ s.l.length = s.halfLen ∧ s.r.length = s.halfLen

/-- 10_state R28 item 3: while `BUSY`, `RIDX <= ROUNDS`, `ILEN = 2 * HALF`, and the key fits its buffer. -/
abbrev BusySound (p : Params) (s : State rW lW) : Prop :=
  s.busy → s.ridx ≤ s.rounds ∧ s.blockLen = 2 * s.halfLen ∧ s.keyLen ≤ p.kbufCap

/-- 10_state R28 item 4: `OLEN <= 64`, and the bytes of `OBUF` from `OLEN` on are zero. -/
abbrev ResultPadded (s : State rW lW) : Prop :=
  s.olen.toNat ≤ Config.obufCap ∧ ∀ j < Config.obufCap, s.olen.toNat ≤ j → s.obuf.read j = 0x00#8

/-- The three buffers are in canonical form and hold nothing beyond their capacity. -/
abbrev BuffersSound (p : Params) (s : State rW lW) : Prop :=
  (s.ibuf.wf ∧ s.ibuf.within Config.ibufCap) ∧ (s.kbuf.wf ∧ s.kbuf.within p.kbufCap) ∧
    (s.obuf.wf ∧ s.obuf.within Config.obufCap)

/-- The invariants of 10_state R28. -/
abbrev Inv (p : Params) (s : State rW lW) : Prop :=
  StatusLegal s ∧ HalvesSized s ∧ BusySound p s ∧ ResultPadded s ∧ BuffersSound p s

/-- Two states hold the same host-owned state: `ROUNDS`, `ILEN`, `KLEN`, `IBUF`, `KBUF` (10_state R24). -/
abbrev SameOperands (s t : State rW lW) : Prop :=
  s.rounds = t.rounds ∧ s.ilen = t.ilen ∧ s.klen = t.klen ∧ s.ibuf = t.ibuf ∧ s.kbuf = t.kbuf

/-- Two states hold the same engine-owned state: `L`, `R`, `HALF`, `RIDX`, `STATUS`, `OLEN`, `OBUF` (10_state R24). -/
abbrev SameEngineState (s t : State rW lW) : Prop :=
  s.l = t.l ∧ s.r = t.r ∧ s.half = t.half ∧ s.ridx = t.ridx ∧ s.status = t.status ∧ s.olen = t.olen ∧ s.obuf = t.obuf

/-- Two states hold the same host side: what is pending, what is fixed of the turns, what was read. -/
abbrev SameHostSide (s t : State rW lW) : Prop :=
  s.host = t.host ∧ s.sched = t.sched ∧ s.responses = t.responses

/-- Two states show the host the same result: `STATUS`, `OLEN`, and each byte of `OBUF`. -/
abbrev SameResult (s t : State rW lW) : Prop :=
  s.status = t.status ∧ s.olen = t.olen ∧ ∀ j, s.obuf.read j = t.obuf.read j

/-- The conditions under which `XFORM` is accepted without error (40_feistel_round_engine R81 to R84). -/
abbrev XformReady (p : Params) (s : State rW lW) : Prop :=
  s.busy = false ∧ s.blockLen % 2 = 0 ∧ s.blockLen / 2 ≤ Config.digestLen ∧ s.keyLen ≤ p.kbufCap

/-- The block operand `MemRead(IBUF, 0, ILEN)` (30_encoding R61). -/
abbrev blockBytes (s : State rW lW) : Bytes := s.ibuf.readBytes 0 s.blockLen
/-- The key operand `MemRead(KBUF, 0, KLEN)` (30_encoding R61). -/
abbrev keyBytes (s : State rW lW) : Bytes := s.kbuf.readBytes 0 s.keyLen
/-- The result operand `MemRead(OBUF, 0, OLEN)` (40_feistel_round_engine R92). -/
abbrev resultBytes (s : State rW lW) : Bytes := s.obuf.readBytes 0 s.olen.toNat

/-- The instructions by which the host writes a register or a buffer byte, `CMD` included: what the write lock of
20_memory R52 stops. -/
def isHostWrite : Instr → Bool
  | .clr | .xform | .digest | .xorc | .encrypt | .decrypt => true
  | .reserved04 _ | .reserved08 _ | .reserved10 _ | .reserved20 _ | .reserved40 _ | .reserved80 _ => true
  | .wr _ _ | .wrb _ _ _ => true
  | .rd _ | .rdb _ _ | .round | .finish | .loadblk _ | .loadkey _ | .wait | .readout | .feedback => false

/-- The instructions that raise `CmdIllegal` (43_control R131). -/
def isReserved : Instr → Bool
  | .reserved04 _ | .reserved08 _ | .reserved10 _ | .reserved20 _ | .reserved40 _ | .reserved80 _ => true
  | .clr | .xform | .digest | .xorc | .encrypt | .decrypt | .wr _ _ | .wrb _ _ _ => false
  | .rd _ | .rdb _ _ | .round | .finish | .loadblk _ | .loadkey _ | .wait | .readout | .feedback => false

end Sys2Proof.Safety
end

