-- ==== Sys2Proof/Certificates/Slice0/Obligations.lean ====
section
/-! DEFINITION. The statements for the provers. Each docstring names the rule or section of spec/ it formalises. -/
open Sys2Proof Sys2Proof.Machine Sys2Proof.Safety

/-! ### Encoding -/

/-- 30_encoding R62, R69 and 95_test_vectors section 4: some words, written out from the spec, decode to what they stand for. -/
def Obligations.WordsOfTheSpecDecode : Prop :=
  decodeCmd 0x00#8 = .clr ∧ decodeCmd 0x01#8 = .xform ∧ decodeCmd 0x02#8 = .digest ∧ decodeCmd 0x03#8 = .xorc ∧
  decodeCmd 0x05#8 = .reserved04 1#2 ∧ decodeCmd 0x0F#8 = .reserved08 7#3 ∧ decodeCmd 0x1A#8 = .reserved10 10#4 ∧
  decodeCmd 0x21#8 = .reserved20 1#5 ∧ decodeCmd 0x7F#8 = .reserved40 63#6 ∧ decodeCmd 0x80#8 = .reserved80 0#7 ∧
  decodeBus chip (.write 0x000 8 0x01#8) = .ok .xform ∧
  decodeBus chip (.write 0x004 32 0x00000013#32) = .ok (.wr (.reg .rounds) 19) ∧
  decodeBus chip (.write 0x00E 16 0x0002#16) = .ok (.wr (.reg .klen) 2) ∧
  decodeBus chip (.read 0x001 8) = .ok (.rd (.reg .status)) ∧
  decodeBus chip (.read 0x083 8) = .ok (.rdb .obuf 3) ∧
  decodeBus chip (.write 0x0C1 8 0xBB#8) = .ok (.wrb .kbuf 1 0xBB#8)

/-- 30_encoding R62, R63: the rows of the table cover each of the 256 values of `CMD` exactly once. -/
def Obligations.EveryCommandValueHasExactlyOneRow : Prop :=
  (∀ v : Byte, encodeCmd (decodeCmd v) = some v) ∧ (∀ (i : Instr) (v : Byte), encodeCmd i = some v → decodeCmd v = i)

/-- 30_encoding R66, R69, 20_memory R46: decoding the transaction of a well-formed instruction in its canonical
spelling gives the instruction back, whatever its operands are, at every value of the OPEN parameters (00_scope R4).
The spelling is the model's choice (log 12); the other spellings are `SecondSpellingsDecodeToTheirCommand`. -/
def Obligations.DecodeOfEncodeIsTheInstruction : Prop :=
  ∀ (p : Params) (i : Instr) (t : BusTxn), p.wellFormed → i.wellFormed p = true → i.canonical p = true →
    encode p i = some t → decodeBus p t = .ok i

/-- 30_encoding R66, R69, 20_memory R46: encoding what a transaction decodes to gives the transaction back, so the
decoder drops no bit of its direction, offset, width or value, at every value of the OPEN parameters (00_scope R4). -/
def Obligations.EncodeOfDecodeIsTheTransaction : Prop :=
  ∀ (p : Params) (t : BusTxn) (i : Instr), decodeBus p t = .ok i → encode p i = some t

/-- 30_encoding R66, R67, 43_control R133: a spelling that the decoder does not answer with decodes to the one that it
answers with: `WR CMD` to the command of its low byte, `ENCRYPT` and `DECRYPT` to `XFORM`, and any other `WR` of a value
too long for its register, or for its reserved place, to the `WR` of the truncated value. Which of two spellings of one
transaction the decoder answers with is the model's choice (log 12). -/
def Obligations.SecondSpellingsDecodeToTheirCommand : Prop :=
  (∀ (v : Nat) (t : BusTxn), encode chip (.wr (.reg .cmd) v) = some t →
    decodeBus chip t = .ok (decodeCmd (BitVec.ofNat 8 v))) ∧
  (∀ t : BusTxn, encode chip .encrypt = some t → decodeBus chip t = .ok .xform) ∧
  (∀ t : BusTxn, encode chip .decrypt = some t → decodeBus chip t = .ok .xform) ∧
  (∀ (g : RegTarget) (v : Nat) (t : BusTxn), g ≠ .reg .cmd → g.wellFormed chip = true →
    encode chip (.wr g v) = some t → decodeBus chip t = .ok (.wr g (v % 2 ^ g.width chip)))

/-- 20_memory R43, 93_implementation_defined U6: an access to a register, or to a buffer byte, of any other width than
its own is refused, as a read and as a write, and so is the host's step that issues it. Every other access is refused
too that is not a whole register, one buffer byte, or a reserved access: one that starts inside a register, one that
reaches from a reserved offset onto a register or a buffer, and one on reserved offsets whose width is 0 or above 32. That
the decoder refuses these last, which R43 does not name, is the model's choice (log 11). -/
def Obligations.OtherAccessWidthsAreRefused : Prop :=
  (∀ (r : Reg) (w : Nat) (v : BitVec w), w ≠ r.width chip →
    decodeBus chip (.read (chip.regmap.regBase r) w) = .error .accessWidth ∧
    decodeBus chip (.write (chip.regmap.regBase r) w v) = .error .accessWidth) ∧
  (∀ (b : Buf) (k w : Nat) (v : BitVec w), k < chip.cap b → w ≠ 8 →
    decodeBus chip (.read (chip.regmap.bufBase b + k) w) = .error .accessWidth ∧
    decodeBus chip (.write (chip.regmap.bufBase b + k) w v) = .error .accessWidth) ∧
  (∀ (offset w : Nat) (v : BitVec w),
    (∀ r : Reg, ¬(offset = chip.regmap.regBase r ∧ w = r.width chip)) →
    (∀ (b : Buf) (k : Nat), k < chip.cap b → ¬(offset = chip.regmap.bufBase b + k ∧ w = 8)) →
    ¬((1 ≤ w ∧ w ≤ 32) ∧
      ((offset = 0x003 ∧ w ≤ 8) ∨ (0x012 ≤ offset ∧ offset + (w + 7) / 8 ≤ 0x040) ∨ 0x100 ≤ offset)) →
    decodeBus chip (.read offset w) = .error .accessWidth ∧
    decodeBus chip (.write offset w v) = .error .accessWidth) ∧
  (∀ (s : State) (t : BusTxn) (rest : List Line) (e : BusError), s.turn = .host → s.host = .bus t :: rest →
    decodeBus chip t = .error e → step s = .refused (.badAccess e))

/-! ### The step -/

/-- 20_memory R48, 00_scope R6: when the host moves and its next line stands for the instruction `i`, the step is `i`
at the state with that line and that turn taken off. A script line stands for itself, a raw transaction for its
decoding. How lines and turns are held is the model's choice (logs 5 and 6). -/
def Obligations.StepRunsTheHostsInstruction : Prop :=
  (∀ (s : State) (ln : Line) (rest : List Line) (i : Instr), s.turn = .host → s.host = ln :: rest →
    resolveLine chip s ln = .ok i → step s = exec i { s with sched := s.sched.tail, host := rest }) ∧
  (∀ (s : State) (i : Instr), i.hostIssued = true → resolveLine chip s (.instr i) = .ok i) ∧
  (∀ (s : State) (t : BusTxn) (i : Instr), decodeBus chip t = .ok i → resolveLine chip s (.bus t) = .ok i)

/-- 10_state R14: when the engine moves while `BUSY`, the step is `ROUND` if `RIDX < ROUNDS` and `FINISH` if
`RIDX = ROUNDS`; while not `BUSY` nothing but the turn is used up (log 9). -/
def Obligations.StepRunsTheEnabledEngineStep : Prop :=
  ∀ s : State, s.turn = .engine →
    (s.busy = true → s.ridx < s.rounds → step s = exec .round { s with sched := s.sched.tail }) ∧
    (s.busy = true → s.ridx = s.rounds → step s = exec .finish { s with sched := s.sched.tail }) ∧
    (s.busy = false → step s = .next { s with sched := s.sched.tail })

/-- Logs 5 and 6 (the model's choices, 20_memory R48 leaves the interleaving open): a fixed turn is taken as fixed;
with none fixed the engine moves while a step of it is enabled, and the host otherwise. -/
def Obligations.TurnsAreTakenAsFixed : Prop :=
  (∀ (s : State) (u : Turn) (rest : List Turn), s.sched = u :: rest → s.turn = u) ∧
  (∀ s : State, s.sched = [] → s.busy = true → s.ridx ≤ s.rounds → s.turn = .engine) ∧
  (∀ s : State, s.sched = [] → s.busy = false → s.turn = .host)

/-- Log 5 (the model's choice): the word of a command placed with `withFetchWord` is what the very next step decodes
and runs, at the state it was placed in. -/
def Obligations.PlacedWordIsRunNext : Prop :=
  ∀ (s : State) (v : Byte),
    decodeTableWord 8 v.toNat = some (decodeCmd v) ∧ step (s.withFetchWord 8 v.toNat) = exec (decodeCmd v) s

/-! ### Reset -/

/-- 10_state R27, 70_reset_and_hazards R170: the value of every register and buffer byte after reset for which the rule
gives one, and that no engine step is enabled. -/
def Obligations.ResetLeavesTheTabledValues : Prop :=
  let s := State.reset
  s.status = 0x00#8 ∧ s.half = 0 ∧ s.ridx = 0 ∧ s.olen = 0 ∧ s.rounds = 0 ∧ s.ilen = 0 ∧ s.klen = 0 ∧
  (∀ j : Nat, s.ibuf.read j = 0x00#8 ∧ s.kbuf.read j = 0x00#8 ∧ s.obuf.read j = 0x00#8) ∧ s.engineStep = none

/-- 70_reset_and_hazards R170 to R172: reset in any state, also while `BUSY`, ends the operation, clears the key, and
leaves every register and byte at its reset value. That the host's side is kept is the model's choice (log 8). -/
def Obligations.ResetTurnResetsTheBlock : Prop :=
  ∀ s : State, s.turn = .reset → ∃ t : State, step s = .next t ∧
    t.status = 0x00#8 ∧ t.half = 0 ∧ t.ridx = 0 ∧ t.olen = 0 ∧ t.rounds = 0 ∧ t.ilen = 0 ∧ t.klen = 0 ∧
    (∀ j : Nat, t.ibuf.read j = 0x00#8 ∧ t.kbuf.read j = 0x00#8 ∧ t.obuf.read j = 0x00#8) ∧
    t.engineStep = none ∧ t.host = s.host ∧ t.sched = s.sched.tail ∧ t.responses = s.responses

/-! ### Invariants -/

/-- 10_state R28: the invariants hold after reset. -/
def Obligations.InvariantsHoldAtReset : Prop := Inv chip State.reset

/-- 10_state R28: every step of every agent keeps the invariants. -/
def Obligations.EveryStepKeepsTheInvariants : Prop :=
  ∀ s t : State, Inv chip s → step s = .next t → Inv chip t

/-- 60_exceptions R157, 20_memory R44: from a state of R28 no step uses a primitive outside its definition, and the
engine's turn always completes. -/
def Obligations.NoStepFaultsUnderTheInvariants : Prop :=
  ∀ s : State, Inv chip s → (∀ f : Fault, step s ≠ .fault f) ∧ (s.turn = .engine → ∃ t : State, step s = .next t)

/-- 60_exceptions R140, R157: no engine turn raises an error: `STATUS.ERR` keeps its value, and the phase becomes
`ERROR` only if it was. -/
def Obligations.EngineTurnsRaiseNothing : Prop :=
  ∀ s t : State, s.turn = .engine → step s = .next t →
    statusErr t.status = statusErr s.status ∧ (t.phaseIs .error = true → s.phaseIs .error = true)

/-! ### The commands -/

/-- 60_exceptions R149: `raise` sets the phase and the code, and nothing else. -/
def Obligations.RaiseWritesStatusOnly : Prop :=
  ∀ (e : ErrCode) (s : State),
    statusPhase (s.raise e).status = Phase.error.code ∧ statusErr (s.raise e).status = e.code ∧
    statusReserved (s.raise e).status = statusReserved s.status ∧ s.raise e = { s with status := (s.raise e).status }

/-- 60_exceptions R146: the `STATUS` byte a host reads in the `ERROR` phase, for each cause. -/
def Obligations.ErrorStatusBytes : Prop :=
  ∀ s : State,
    (s.raise .invalidInputLength).readReg .status = 0x07 ∧ (s.raise .blockTooLarge).readReg .status = 0x0B ∧
    (s.raise .resourceExhausted).readReg .status = 0x0F ∧ (s.raise .cmdIllegal).readReg .status = 0x13

/-- 20_memory R52: while `BUSY` every host write, the commands among them, changes nothing and raises nothing. -/
def Obligations.HostWritesAreIgnoredWhileBusy : Prop :=
  ∀ (i : Instr) (s : State), isHostWrite i = true → i.wellFormed chip = true → s.busy = true → exec i s = .next s

/-- 43_control R130: `CLR` sets every engine-owned register to its reset value and `OBUF` to zeros, and leaves the
operands and the host's side. (`L` and `R` become unspecified there: no claim about them.) -/
def Obligations.ClrClearsTheEngineState : Prop :=
  ∀ s : State, s.busy = false → s.obuf.wf → ∃ t : State, exec .clr s = .next t ∧
    statusPhase t.status = Phase.idle.code ∧ statusErr t.status = ErrCode.none.code ∧
    statusReserved t.status = statusReserved s.status ∧ t.half = 0 ∧ t.ridx = 0 ∧ t.olen = 0 ∧
    (∀ j < 64, t.obuf.read j = 0x00#8) ∧ (∀ j, 64 ≤ j → t.obuf.read j = s.obuf.read j) ∧
    SameOperands s t ∧ SameHostSide s t

/-- 43_control R131: the values `0x04` to `0xFF` are the reserved commands; each raises `CmdIllegal`, which sets the
phase and the code and changes nothing else, and each is ignored while `BUSY`. -/
def Obligations.ReservedCommandsRaiseCmdIllegal : Prop :=
  (∀ v : Byte, 4 ≤ v.toNat ↔ isReserved (decodeCmd v) = true) ∧
  ∀ (i : Instr) (s : State), isReserved i = true →
    (s.busy = true → exec i s = .next s) ∧
    (s.busy = false → ∃ b : Byte, exec i s = .next { s with status := b } ∧
      statusPhase b = Phase.error.code ∧ statusErr b = 4 ∧ statusReserved b = statusReserved s.status)

/-- 40_feistel_round_engine R81, R85, 20_memory R41, 30_encoding R67: the accept step of `XFORM`, `ENCRYPT` and
`DECRYPT` splits the block into copies, sets `RIDX` to 0 and the phase to `BUSY`, and changes nothing else. -/
def Obligations.XformAcceptSplitsTheBlock : Prop :=
  ∀ (i : Instr) (s : State), i = .xform ∨ i = .encrypt ∨ i = .decrypt → XformReady chip s →
    ∃ t : State, exec i s = .next t ∧
      statusPhase t.status = Phase.busy.code ∧ statusErr t.status = ErrCode.none.code ∧
      statusReserved t.status = statusReserved s.status ∧
      t.halfLen = s.blockLen / 2 ∧ t.ridx = 0 ∧ t.l.length = s.blockLen / 2 ∧ t.r.length = s.blockLen / 2 ∧
      (∀ j < s.blockLen / 2, t.l[j]? = some (s.ibuf.read j) ∧ t.r[j]? = some (s.ibuf.read (s.blockLen / 2 + j))) ∧
      t.olen = s.olen ∧ t.obuf = s.obuf ∧ SameOperands s t ∧ SameHostSide s t

/-- 40_feistel_round_engine R81 to R84, 60_exceptions R148: the checks of `XFORM` (and `ENCRYPT`, `DECRYPT`) in order,
the first that applies raised and no other. -/
def Obligations.XformRaisesTheFirstErrorThatApplies : Prop :=
  ∀ (i : Instr) (s : State), i = .xform ∨ i = .encrypt ∨ i = .decrypt → s.busy = false →
    (s.blockLen % 2 = 1 → exec i s = .next (s.raise .invalidInputLength)) ∧
    (s.blockLen % 2 = 0 → 66 ≤ s.blockLen → exec i s = .next (s.raise .blockTooLarge)) ∧
    (s.blockLen % 2 = 0 → s.blockLen ≤ 64 → chip.kbufCap < s.keyLen → exec i s = .next (s.raise .resourceExhausted))

/-- 41_hash_round_function_wrapper R110, R111, R115: `DIGEST` leaves `HASH(message ‖ key)` in the first 32 bytes of
`OBUF`, zeros in the rest, and touches neither the working registers nor the operands. -/
def Obligations.DigestStoresTheHashOfMessageThenKey : Prop :=
  ∀ s : State, s.busy = false → s.blockLen ≤ 64 → s.keyLen ≤ chip.kbufCap → s.obuf.wf →
    ∃ t : State, exec .digest s = .next t ∧
      statusPhase t.status = Phase.done.code ∧ statusErr t.status = ErrCode.none.code ∧
      statusReserved t.status = statusReserved s.status ∧ t.olen.toNat = 32 ∧
      (∀ j < 32, (Config.hash (blockBytes s ++ keyBytes s)).toList[j]? = some (t.obuf.read j)) ∧
      (∀ j, 32 ≤ j → j < 64 → t.obuf.read j = 0x00#8) ∧ (∀ j, 64 ≤ j → t.obuf.read j = s.obuf.read j) ∧
      t.l = s.l ∧ t.r = s.r ∧ t.half = s.half ∧ t.ridx = s.ridx ∧ SameOperands s t ∧ SameHostSide s t

/-- 42_block_xor_combine R120, R124: `XORC` leaves the byte-wise XOR of the two halves in `OBUF`, zeros after it, and
touches neither the working registers nor the operands. -/
def Obligations.XorcStoresTheXorOfTheHalves : Prop :=
  ∀ s : State, s.busy = false → s.blockLen % 2 = 0 → s.blockLen ≤ 64 → s.obuf.wf →
    ∃ t : State, exec .xorc s = .next t ∧
      statusPhase t.status = Phase.done.code ∧ statusErr t.status = ErrCode.none.code ∧
      statusReserved t.status = statusReserved s.status ∧ t.olen.toNat = s.blockLen / 2 ∧
      (∀ j < 64, t.obuf.read j =
        if j < s.blockLen / 2 then s.ibuf.read j ^^^ s.ibuf.read (s.blockLen / 2 + j) else 0x00#8) ∧
      (∀ j, 64 ≤ j → t.obuf.read j = s.obuf.read j) ∧
      t.l = s.l ∧ t.r = s.r ∧ t.half = s.half ∧ t.ridx = s.ridx ∧ SameOperands s t ∧ SameHostSide s t

/-- 41_hash_round_function_wrapper R115, 42_block_xor_combine R124, 60_exceptions R143, R148: `DIGEST` raises for an
operand longer than its buffer; `XORC` raises for an odd length first, then for one too long. -/
def Obligations.DigestAndXorcRaiseTheFirstErrorThatApplies : Prop :=
  ∀ s : State, s.busy = false →
    (64 < s.blockLen ∨ chip.kbufCap < s.keyLen → exec .digest s = .next (s.raise .resourceExhausted)) ∧
    (s.blockLen % 2 = 1 → exec .xorc s = .next (s.raise .invalidInputLength)) ∧
    (s.blockLen % 2 = 0 → 66 ≤ s.blockLen → exec .xorc s = .next (s.raise .resourceExhausted))

/-! ### The host accesses -/

/-- 43_control R132, 10_state R16: `RD` of a register answers its value, `CMD` reads 0, `STATUS` reads
`PHASE | ERR << 2`; nothing else changes, in every phase. -/
def Obligations.ReadReturnsTheRegister : Prop :=
  ∀ (g : Reg) (s : State), ∃ v : Nat,
    exec (.rd (.reg g)) s = .next { s with responses := s.responses ++ [v] } ∧
    v = match g with
      | .cmd => 0
      | .status => (statusPhase s.status).toNat + 4 * (statusErr s.status).toNat
      | .half => s.half.toNat
      | .rounds => s.rounds.toNat
      | .ridx => s.ridx.toNat
      | .ilen => s.ilen.toNat
      | .klen => s.klen.toNat
      | .olen => s.olen.toNat

/-- 43_control R133: `WR` of an operand register stores the value truncated to the register's width and nothing else;
`WR` of `CMD` does what the command of its low byte does; `WR` of a read-only register, and any `WR` while `BUSY`, is
ignored. -/
def Obligations.WriteStoresTheOperandRegister : Prop :=
  ∀ (s : State) (v : Nat),
    (∀ g : Reg, s.busy = true → exec (.wr (.reg g) v) s = .next s) ∧
    exec (.wr (.reg .cmd) v) s = exec (decodeCmd (BitVec.ofNat 8 (v % 2 ^ 8))) s ∧
    (s.busy = false → exec (.wr (.reg .rounds) v) s = .next { s with rounds := BitVec.ofNat 32 (v % 2 ^ 32) }) ∧
    (s.busy = false → exec (.wr (.reg .ilen) v) s = .next { s with ilen := BitVec.ofNat 16 (v % 2 ^ 16) }) ∧
    (s.busy = false → exec (.wr (.reg .klen) v) s = .next { s with klen := BitVec.ofNat 16 (v % 2 ^ 16) }) ∧
    (∀ g : Reg, g = .status ∨ g = .half ∨ g = .ridx ∨ g = .olen → exec (.wr (.reg g) v) s = .next s)

/-- 20_memory R46, R47: an access that falls on reserved offsets of the default map only decodes, a read answers 0 and
a write is ignored. -/
def Obligations.ReservedOffsetsReadZeroAndIgnoreWrites : Prop :=
  ∀ (offset width : Nat) (v : Nat) (x : BitVec width) (s : State), 1 ≤ width → width ≤ 32 →
    (offset = 0x003 ∧ width ≤ 8) ∨ (0x012 ≤ offset ∧ offset + (width + 7) / 8 ≤ 0x040) ∨ 0x100 ≤ offset →
    decodeBus chip (.read offset width) = .ok (.rd (.reserved offset width)) ∧
    decodeBus chip (.write offset width x) = .ok (.wr (.reserved offset width) x.toNat) ∧
    exec (.rd (.reserved offset width)) s = .next { s with responses := s.responses ++ [0] } ∧
    exec (.wr (.reserved offset width) v) s = .next s

/-- 43_control R134: `RDB` answers the byte, zero-extended, in every phase, and changes nothing else. -/
def Obligations.ReadByteReturnsTheByte : Prop :=
  ∀ (b : Buf) (k : Nat) (s : State), k < chip.cap b →
    exec (.rdb b k) s = .next { s with responses := s.responses ++ [((s.buf b).read k).toNat] }

/-- 43_control R134, 20_memory R44, R47: `WRB` changes the one byte of `IBUF` or `KBUF` and no other, no length
register among the rest; `WRB` to `OBUF` is ignored. -/
def Obligations.WriteByteStoresTheByte : Prop :=
  ∀ (k : Nat) (v : Byte) (s : State), s.busy = false → k < 64 →
    (s.ibuf.wf → ∃ m : Memory, exec (.wrb .ibuf k v) s = .next { s with ibuf := m } ∧ m.wf ∧
      ∀ x, m.read x = if x = k then v else s.ibuf.read x) ∧
    (s.kbuf.wf → ∃ m : Memory, exec (.wrb .kbuf k v) s = .next { s with kbuf := m } ∧ m.wf ∧
      ∀ x, m.read x = if x = k then v else s.kbuf.read x) ∧
    exec (.wrb .obuf k v) s = .next s

/-- 43_control R134, 93_implementation_defined U11: an index at or above the capacity is refused. -/
def Obligations.IndexBeyondCapacityIsRefused : Prop :=
  ∀ (b : Buf) (k : Nat) (v : Byte) (s : State), chip.cap b ≤ k →
    exec (.rdb b k) s = .refused .bufferIndexBeyondCapacity ∧ exec (.wrb b k v) s = .refused .bufferIndexBeyondCapacity

/-! ### The engine steps -/

/-- 40_feistel_round_engine R86, R87 to R90: `ROUND` makes `R` the new `L`, and `L` xored with the first `HALF` bytes of
`HASH(R ‖ key)` the new `R`; `RIDX` counts one more without wrapping; nothing else changes. -/
def Obligations.RoundComputesOneFeistelRound : Prop :=
  ∀ s : State, s.busy = true → s.ridx < s.rounds → s.keyLen ≤ chip.kbufCap → s.halfLen ≤ 32 →
    s.l.length = s.halfLen → ∃ (newR : Bytes) (count : BitVec 32),
      exec .round s = .next { s with l := s.r, r := newR, ridx := count } ∧
      newR.length = s.halfLen ∧ count.toNat = s.ridx.toNat + 1 ∧
      ∀ j < s.halfLen, newR[j]? =
        some (s.l.getD j 0 ^^^ (Config.hash (s.r ++ keyBytes s)).toList.getD j 0)

/-- 40_feistel_round_engine R91: `FINISH` writes `R` then `L` then zeros into `OBUF`, `2 * HALF` into `OLEN`, `DONE`
into the phase, and keeps `ERR`, the working registers and the operands. -/
def Obligations.FinishStoresRightThenLeft : Prop :=
  ∀ s : State, s.busy = true → s.ridx = s.rounds → s.halfLen ≤ 32 → s.l.length = s.halfLen →
    s.r.length = s.halfLen → s.obuf.wf → ∃ t : State, exec .finish s = .next t ∧
      statusPhase t.status = Phase.done.code ∧ statusErr t.status = statusErr s.status ∧
      statusReserved t.status = statusReserved s.status ∧ t.olen.toNat = 2 * s.halfLen ∧
      (∀ j < s.halfLen, s.r[j]? = some (t.obuf.read j) ∧ s.l[j]? = some (t.obuf.read (s.halfLen + j))) ∧
      (∀ j, 2 * s.halfLen ≤ j → j < 64 → t.obuf.read j = 0x00#8) ∧ (∀ j, 64 ≤ j → t.obuf.read j = s.obuf.read j) ∧
      t.l = s.l ∧ t.r = s.r ∧ t.half = s.half ∧ t.ridx = s.ridx ∧ SameOperands s t ∧ SameHostSide s t

/-- 40_feistel_round_engine R86, R91 ("Enabled when"): outside its condition an engine step is no step, and neither
can be a line of the host (the model's refusals, log 15). -/
def Obligations.EngineStepsNeedTheirCondition : Prop :=
  (∀ s : State, ¬(s.busy = true ∧ s.ridx < s.rounds) → exec .round s = .refused .engineStepNotEnabled) ∧
  (∀ s : State, ¬(s.busy = true ∧ s.ridx = s.rounds) → exec .finish s = .refused .engineStepNotEnabled) ∧
  (∀ (s : State) (rest : List Line) (i : Instr), i = .round ∨ i = .finish → s.turn = .host →
    s.host = .instr i :: rest → step s = .refused .engineStepFromHost)

/-! ### The pseudo-instructions -/

/-- 30_encoding R67: `LOADBLK` and `LOADKEY` are a `WRB` of each byte in rising order, then the length. That the expansion
goes before the host's pending lines is the model's choice (log 10), and so is that a load of more bytes than the rule
bounds it by ("n <= 64", "m <= KBUF_CAP") is refused (log 23). -/
def Obligations.LoadsExpandToByteWrites : Prop :=
  ∀ (bs : Bytes) (s : State),
    (bs.length ≤ 64 → exec (.loadblk bs) s = .next { s with
      host := bs.mapIdx (fun j v => Line.instr (.wrb .ibuf j v)) ++
        Line.instr (.wr (.reg .ilen) bs.length) :: s.host }) ∧
    (bs.length ≤ chip.kbufCap → exec (.loadkey bs) s = .next { s with
      host := bs.mapIdx (fun j v => Line.instr (.wrb .kbuf j v)) ++
        Line.instr (.wr (.reg .klen) bs.length) :: s.host }) ∧
    (64 < bs.length → exec (.loadblk bs) s = .refused .loadBeyondCapacity) ∧
    (chip.kbufCap < bs.length → exec (.loadkey bs) s = .refused .loadBeyondCapacity)

/-- 30_encoding R67, 43_control R135: `WAIT` is one `RD STATUS`, and itself again while that reads `BUSY`; `READOUT` is
`RD OLEN` and then `RDB OBUF[0]` to `RDB OBUF[OLEN-1]`; `FEEDBACK` is, for each `j` below `OLEN`, `RDB OBUF[j]` and the
`WRB IBUF[j]` of that byte, then `WR ILEN, OLEN`. Nothing else changes (log 10). -/
def Obligations.PseudoReadsExpandToTheirTransactions : Prop :=
  ∀ s : State,
    (s.busy = false → exec .wait s = .next { s with responses := s.responses ++ [s.readReg .status] }) ∧
    (s.busy = true → exec .wait s = .next { s with
      responses := s.responses ++ [s.readReg .status], host := .instr .wait :: s.host }) ∧
    exec .readout s = .next { s with
      responses := s.responses ++ [s.readReg .olen]
      host := (List.range s.olen.toNat).map (fun j => Line.instr (.rdb .obuf j)) ++ s.host } ∧
    exec .feedback s = .next { s with
      host := (List.range s.olen.toNat).flatMap (fun j => [Line.instr (.rdb .obuf j), Line.wrbLast j]) ++
        Line.instr (.wr (.reg .ilen) s.olen.toNat) :: s.host }

/-- 30_encoding R67: run to its end while no operation is in progress and the host alone moves (`sched = []`, log 6),
`LOADBLK` leaves the bytes in `IBUF[0..n)`, `n` in `ILEN`, and everything else, the rest of `IBUF` too, as it was. -/
def Obligations.LoadblkLoadsTheBlock : Prop :=
  ∀ (bs : Bytes) (s : State), s.busy = false → s.sched = [] → bs.length ≤ 64 → s.ibuf.wf →
    ∃ (u : State) (m : Memory), exec (.loadblk bs) s = .next u ∧
      Host.Core.run core (bs.length + 1) u = .next { s with ibuf := m, ilen := BitVec.ofNat 16 bs.length } ∧
      m.readBytes 0 bs.length = bs ∧ (∀ x, bs.length ≤ x → m.read x = s.ibuf.read x)

/-- 30_encoding R67: the same of `LOADKEY`, `KBUF` and `KLEN` (log 6). -/
def Obligations.LoadkeyLoadsTheKey : Prop :=
  ∀ (bs : Bytes) (s : State), s.busy = false → s.sched = [] → bs.length ≤ chip.kbufCap → s.kbuf.wf →
    ∃ (u : State) (m : Memory), exec (.loadkey bs) s = .next u ∧
      Host.Core.run core (bs.length + 1) u = .next { s with kbuf := m, klen := BitVec.ofNat 16 bs.length } ∧
      m.readBytes 0 bs.length = bs ∧ (∀ x, bs.length ≤ x → m.read x = s.kbuf.read x)

/-- 30_encoding R67: run to its end while no operation is in progress and the host alone moves (`sched = []`, log 6),
`READOUT` returns `OLEN` and then the bytes of the result in rising order, and changes nothing else. -/
def Obligations.ReadoutReturnsTheResult : Prop :=
  ∀ s : State, s.busy = false → s.sched = [] → s.olen.toNat ≤ 64 → ∃ u : State, exec .readout s = .next u ∧
    Host.Core.run core s.olen.toNat u = .next { s with
      responses := s.responses ++ s.readReg .olen :: (resultBytes s).map BitVec.toNat }

/-- 30_encoding R67: run to its end while no operation is in progress and the host alone moves (`sched = []`, log 6),
`FEEDBACK` makes the result the input block: `IBUF[0..OLEN)` the result bytes, `ILEN` the result's length, the rest of
`IBUF` and everything else but what the host has read as it was. -/
def Obligations.FeedbackMakesTheResultTheInput : Prop :=
  ∀ s : State, s.busy = false → s.sched = [] → s.olen.toNat ≤ 64 → s.ibuf.wf →
    ∃ (u : State) (m : Memory), exec .feedback s = .next u ∧
      Host.Core.run core (2 * s.olen.toNat + 1) u = .next { s with
        ibuf := m, ilen := s.olen, responses := s.responses ++ (resultBytes s).map BitVec.toNat } ∧
      m.readBytes 0 s.olen.toNat = resultBytes s ∧ (∀ x, s.olen.toNat ≤ x → m.read x = s.ibuf.read x)

/-! ### The functions -/

/-- 42_block_xor_combine R120, R121, R122: the XOR of two strings of one length has that length, and each bit of each
byte is the exclusive-or of the two bits at its place; unequal lengths have no value. -/
def Obligations.XorCombineIsBitwise : Prop :=
  (∀ a b : Bytes, a.length = b.length → ∃ c : Bytes, xorCombine a b = .ok c ∧ c.length = a.length ∧
    ∀ (j : Nat) (k : Nat), j < a.length → k < 8 →
      (c.getD j 0).getLsbD k = ((a.getD j 0).getLsbD k != (b.getD j 0).getLsbD k)) ∧
  (∀ a b : Bytes, a.length ≠ b.length → xorCombine a b = .error (.refusal .xorUnequalLengths))

/-- 42_block_xor_combine R123: the laws of the XOR on strings of one length. -/
def Obligations.XorLaws : Prop :=
  ∀ a b c : Bytes, a.length = b.length → b.length = c.length →
    xorBytes a b = xorBytes b a ∧ xorBytes (xorBytes a b) c = xorBytes a (xorBytes b c) ∧
    xorBytes a (zeros a.length) = a ∧ xorBytes a a = zeros a.length ∧ xorBytes (xorBytes a b) b = a

/-- 41_hash_round_function_wrapper R110, R111, R112: the digest is the whole `HASH` of the message and then the key, 32
bytes, and depends on the concatenation alone. -/
def Obligations.DigestIsTheHashOfTheConcatenation : Prop :=
  ∀ (hash : Bytes → Vector Byte 32) (m k m' k' : Bytes),
    digest hash m k = (hash (m ++ k)).toList ∧ (digest hash m k).length = 32 ∧
    (m ++ k = m' ++ k' → digest hash m k = digest hash m' k')

/-- 40_feistel_round_engine R93: the round trip, for every `HASH`, key and round count, and every block of even length
up to 64. -/
def Obligations.TransformTwiceIsTheBlock : Prop :=
  ∀ (hash : Bytes → Vector Byte 32) (B K : Bytes) (n : Nat), B.length % 2 = 0 → B.length ≤ 64 →
    ∃ C : Bytes, transform hash B K n = .ok C ∧ transform hash C K n = .ok B

/-- 40_feistel_round_engine R95: a result of `transform` has the block's length. -/
def Obligations.TransformPreservesTheLength : Prop :=
  ∀ (hash : Bytes → Vector Byte 32) (B K C : Bytes) (n : Nat), transform hash B K n = .ok C → C.length = B.length

/-- 40_feistel_round_engine R96: zero rounds exchange the two halves once. -/
def Obligations.TransformOfZeroRoundsSwapsTheHalves : Prop :=
  ∀ (hash : Bytes → Vector Byte 32) (L R K : Bytes), L.length = R.length → L.length ≤ 32 →
    transform hash (L ++ R) K 0 = .ok (R ++ L)

/-- 40_feistel_round_engine R80, R83, R97: an odd length is `InvalidInputLength` and an even one of 66 or more is
`BlockTooLarge`, for any key and round count. -/
def Obligations.TransformRejectsTheLengths : Prop :=
  ∀ (hash : Bytes → Vector Byte 32) (B K : Bytes) (n : Nat),
    (B.length % 2 = 1 → transform hash B K n = .error .invalidInputLength) ∧
    (B.length % 2 = 0 → 66 ≤ B.length → transform hash B K n = .error .blockTooLarge)

/-- 40_feistel_round_engine R98: for a fixed key and round count `transform` is injective on the blocks it accepts. -/
def Obligations.TransformIsInjective : Prop :=
  ∀ (hash : Bytes → Vector Byte 32) (B B' K C : Bytes) (n : Nat),
    transform hash B K n = .ok C → transform hash B' K n = .ok C → B = B'

/-! ### The machine as a whole -/

/-- 40_feistel_round_engine R92: from a state that is not `BUSY` and whose key fits, `XFORM` does what `transform`
says. A length on which `transform` fails ends the command in `ERROR` with that error, no engine step enabled;
otherwise, the engine alone moving, exactly `ROUNDS` rounds and one `FINISH` later the phase is `DONE`, `OLEN` is
`ILEN` and `OBUF[0..OLEN)` is the value of `transform`. That the engine alone moves while no turn is fixed (`sched = []`)
is the model's choice (log 6). -/
def Obligations.XformAgreesWithTransform : Prop :=
  ∀ s : State, s.busy = false → s.keyLen ≤ chip.kbufCap → s.sched = [] → s.obuf.wf →
    (∀ (B : Bytes) (e : ErrCode), B.length = s.blockLen →
      transform Config.hash B (keyBytes s) s.rounds.toNat = .error e →
        exec .xform s = .next (s.raise e) ∧ (s.raise e).engineStep = none) ∧
    (∀ C : Bytes, transform Config.hash (blockBytes s) (keyBytes s) s.rounds.toNat = .ok C →
      ∃ u t : State, exec .xform s = .next u ∧ u.busy = true ∧
        (∀ k < s.rounds.toNat, ∃ v : State, Host.Core.run core k u = .next v ∧ v.engineStep = some .round) ∧
        (∃ v : State, Host.Core.run core s.rounds.toNat u = .next v ∧ v.engineStep = some .finish) ∧
        Host.Core.run core (s.rounds.toNat + 1) u = .next t ∧ t.engineStep = none ∧
        statusPhase t.status = Phase.done.code ∧ statusErr t.status = ErrCode.none.code ∧
        t.olen = s.ilen ∧ resultBytes t = C)

/-- 40_feistel_round_engine R92, last sentence, and R101: after `k` `ROUND` steps `RIDX = k`, `L = L_k` and `R = R_k`
of `transform`, the engine alone moving (`sched = []`, log 6). -/
def Obligations.AfterEachRoundTheHalvesAreTransforms : Prop :=
  ∀ s : State, XformReady chip s → s.sched = [] → ∃ u : State, exec .xform s = .next u ∧
    ∀ k ≤ s.rounds.toNat, ∃ v : State, Host.Core.run core k u = .next v ∧ v.ridx.toNat = k ∧
      (v.l, v.r) = feistelHalves Config.hash (keyBytes s) (s.blockLen / 2)
        ((blockBytes s).take (s.blockLen / 2), (blockBytes s).drop (s.blockLen / 2)) k

/-- 40_feistel_round_engine R92, 20_memory R52, R53: a host's step taken while `BUSY`, whatever its line, changes
neither the operands nor the engine's state, so host steps between the engine's change no result. -/
def Obligations.HostStepsWhileBusyLeaveTheBlock : Prop :=
  ∀ s t : State, s.busy = true → s.turn = .host → step s = .next t → SameOperands s t ∧ SameEngineState s t

/-- 20_memory R52, 70_reset_and_hazards R171, 43_control R136: a `BUSY` phase ends only by `FINISH` or by reset. -/
def Obligations.BusyEndsOnlyByFinishOrReset : Prop :=
  ∀ s t : State, s.busy = true → step s = .next t → t.busy = false →
    s.turn = .reset ∨ (s.turn = .engine ∧ s.ridx = s.rounds ∧ t.phaseIs .done = true)

/-- 60_exceptions R157, 70_reset_and_hazards R179, R180: from a `BUSY` state of R28, the engine alone moving, the
operation is `DONE` after exactly the rounds that are left and one step more, and `BUSY` until then. That the engine
alone moves while no turn is fixed (`sched = []`) is the model's choice (log 6). -/
def Obligations.BusyReachesDone : Prop :=
  ∀ s : State, Inv chip s → s.busy = true → s.sched = [] →
    (∀ k ≤ s.rounds.toNat - s.ridx.toNat, ∃ v : State, Host.Core.run core k s = .next v ∧ v.busy = true) ∧
    ∃ t : State, Host.Core.run core (s.rounds.toNat - s.ridx.toNat + 1) s = .next t ∧ t.phaseIs .done = true ∧
      statusErr t.status = 0 ∧ SameOperands s t ∧ SameHostSide s t

/-- 40_feistel_round_engine R100: none of the steps of `XFORM` writes an operand or reaches outside the block. -/
def Obligations.XformWritesNoOperand : Prop :=
  ∀ (i : Instr) (s t : State), i = .xform ∨ i = .round ∨ i = .finish → exec i s = .next t →
    SameOperands s t ∧ SameHostSide s t

/-- 10_state R23, 20_memory R47, R51, 60_exceptions R149: a step that changes the result operand ends in `DONE` or
`IDLE`, and is one of these: reset; the engine's step at `RIDX = ROUNDS`; or, while not `BUSY`, the host's `CLR`,
`DIGEST` or `XORC`, as a command or as the `WR` of `CMD`. -/
def Obligations.ResultChangesOnlyWithDoneOrIdle : Prop :=
  ∀ s t : State, step s = .next t → t.obuf ≠ s.obuf ∨ t.olen ≠ s.olen →
    (t.phaseIs .done = true ∨ t.phaseIs .idle = true) ∧
    (s.turn = .reset ∨ (s.turn = .engine ∧ s.busy = true ∧ s.ridx = s.rounds) ∨
      (s.turn = .host ∧ s.busy = false ∧ ∃ (ln : Line) (rest : List Line) (i : Instr),
        s.host = ln :: rest ∧ resolveLine chip s ln = .ok i ∧
        (i = .clr ∨ i = .digest ∨ i = .xorc ∨ ∃ v : Nat, i = .wr (.reg .cmd) v ∧ v % 2 ^ 8 ∈ [0x00, 0x02, 0x03])))

/-- 10_state R26: the outcome of `XFORM` is a function of the operands: two states of R28 that agree on them, whatever
else they hold, end with the same `STATUS`, `OLEN` and `OBUF`, the engine alone moving (`sched = []`, log 6). -/
def Obligations.XformResultDependsOnOperandsOnly : Prop :=
  ∀ s s' : State, Inv chip s → Inv chip s' → SameOperands s s' → XformReady chip s → s'.busy = false →
    s.sched = [] → s'.sched = [] → ∃ u u' t t' : State, exec .xform s = .next u ∧ exec .xform s' = .next u' ∧
      Host.Core.run core (s.rounds.toNat + 1) u = .next t ∧ Host.Core.run core (s.rounds.toNat + 1) u' = .next t' ∧
      SameResult t t'

/-- 10_state R26: the same of `DIGEST` and `XORC`, which end at once; where they fail they fail alike. -/
def Obligations.DigestAndXorcDependOnOperandsOnly : Prop :=
  ∀ (i : Instr) (s s' : State), i = .digest ∨ i = .xorc → Inv chip s → Inv chip s' → SameOperands s s' →
    s.busy = false → s'.busy = false → ∃ t t' : State, exec i s = .next t ∧ exec i s' = .next t' ∧
      t.status = t'.status ∧ (t.phaseIs .done = true → SameResult t t')

/-! ### The parameters -/

/-- 00_scope R4, 10_state R29 (log 1): `exec` and `step` are the step relation at the spec's defaults, and the relation
takes each parameter as an argument: the register widths, `KBUF_CAP`, `HASH`, and, through the decoder, `REGMAP`. -/
def Obligations.ParametersAreArgumentsOfTheStep : Prop :=
  (∀ (i : Instr) (s : State), exec i s = execAt chip i s) ∧ (∀ s : State, step s = stepAt chip s) ∧
  (chip.roundsW = 32 ∧ chip.lenW = 16 ∧ chip.kbufCap = 64 ∧ chip.hash = Config.hash ∧ chip.wellFormed) ∧
  ∀ (p : Params) (s : State p.roundsW p.lenW), s.busy = false →
    (∀ v : Nat, execAt p (.wr (.reg .rounds) v) s = .next { s with rounds := BitVec.ofNat p.roundsW v }) ∧
    (∀ v : Nat, execAt p (.wr (.reg .ilen) v) s = .next { s with ilen := BitVec.ofNat p.lenW v }) ∧
    (s.blockLen ≤ 64 → p.kbufCap < s.keyLen → execAt p .digest s = .next (s.raise .resourceExhausted)) ∧
    (∀ (k : Nat) (v : Byte), p.kbufCap ≤ k → execAt p (.wrb .kbuf k v) s = .refused .bufferIndexBeyondCapacity) ∧
    (s.blockLen ≤ 64 → s.keyLen ≤ p.kbufCap → s.obuf.wf → ∃ t : State p.roundsW p.lenW,
      execAt p .digest s = .next t ∧
      ∀ j < 32, (p.hash (blockBytes s ++ keyBytes s)).toList[j]? = some (t.obuf.read j)) ∧
    (∀ v : Byte, resolveLine p s (.bus (.write p.regmap.cmd 8 v)) = .ok (decodeCmd v))

/-- 10_state R28, R29, 00_scope R4: at every value of the OPEN parameters that 92_eei_decisions allows, every step of
every agent keeps the invariants. -/
def Obligations.EveryStepAtAnyParametersKeepsTheInvariants : Prop :=
  ∀ (p : Params) (s t : State p.roundsW p.lenW), p.wellFormed → Inv p s → stepAt p s = .next t → Inv p t
end

