-- ==== Sys2Proof/Laws/Config.lean ====
section
/-! SUPPORT. The constants of Config as numerals, for simp and, after it, omega. -/
namespace Sys2Proof

@[simp] theorem Config.roundsW_eq : Config.roundsW = 32 := rfl
@[simp] theorem Config.lenW_eq : Config.lenW = 16 := rfl
@[simp] theorem Config.digestLen_eq : Config.digestLen = 32 := rfl
@[simp] theorem Config.ibufCap_eq : Config.ibufCap = 64 := rfl
@[simp] theorem Config.obufCap_eq : Config.obufCap = 64 := rfl
@[simp] theorem chip_roundsW : chip.roundsW = 32 := rfl
@[simp] theorem chip_lenW : chip.lenW = 16 := rfl
@[simp] theorem chip_busW : chip.busW = 32 := rfl
@[simp] theorem chip_kbufCap : chip.kbufCap = 64 := rfl
@[simp] theorem chip_hash : chip.hash = Config.hash := rfl
@[simp] theorem chip_cap (b : Buf) : chip.cap b = 64 := by cases b <;> rfl

end Sys2Proof
end

