-- ==== Sys2Proof/Laws/Memory.lean ====
section
/-! SUPPORT. Buffers: read after write, and that every write keeps the canonical form and the capacity. -/
namespace Sys2Proof.Machine

theorem Memory.wf_nil : Memory.wf [] := by simp [Memory.wf]

theorem Memory.wf_tail {c : Host.Cell} {m : Memory} (h : Memory.wf (c :: m)) : m.wf :=
  ⟨(List.pairwise_cons.1 h.1).2, fun d hd => h.2 d (List.mem_cons_of_mem _ hd)⟩

theorem Memory.head_lt {c d : Host.Cell} {m : Memory} (h : Memory.wf (c :: m)) (hd : d ∈ m) : c.1 < d.1 :=
  (List.pairwise_cons.1 h.1).1 d hd

/-- Below the first listed offset nothing is listed. -/
theorem Memory.read_below {m : Memory} {x : Nat} (h : ∀ c ∈ m, x < c.1) : m.read x = 0x00#8 := by
  cases m with
  | nil => rfl
  | cons c m => simp [Memory.read, h c List.mem_cons_self]

theorem Memory.read_above {m : Memory} {x : Nat} (h : ∀ c ∈ m, c.1 < x) : m.read x = 0x00#8 := by
  induction m with
  | nil => rfl
  | cons c m ih =>
    have hc := h c List.mem_cons_self
    simp only [Memory.read]
    rw [if_neg (by omega), if_neg (by omega)]
    exact ih fun d hd => h d (List.mem_cons_of_mem _ hd)

/-- A written offset is an old one or the one written. -/
theorem Memory.mem_write {m : Memory} {a : Nat} {v : Byte} {c : Host.Cell} (h : c ∈ m.write a v) :
    c ∈ m ∨ (c = (a, v) ∧ v ≠ 0x00#8) := by
  induction m with
  | nil =>
    simp only [Memory.write] at h
    split at h <;> simp_all
  | cons d m ih =>
    simp only [Memory.write] at h
    split at h
    · split at h
      · exact .inl h
      · rcases List.mem_cons.1 h with h | h
        · exact .inr ⟨h, ‹_›⟩
        · exact .inl h
    · split at h
      · split at h
        · exact .inl (List.mem_cons_of_mem _ h)
        · rcases List.mem_cons.1 h with h | h
          · exact .inr ⟨by simp_all, ‹_›⟩
          · exact .inl (List.mem_cons_of_mem _ h)
      · rcases List.mem_cons.1 h with h | h
        · exact .inl (h ▸ List.mem_cons_self)
        · exact (ih h).imp_left (List.mem_cons_of_mem _)

/-- Every write of a byte keeps the canonical form. -/
theorem Memory.write_wf {m : Memory} (a : Nat) (v : Byte) (h : m.wf) : (m.write a v).wf := by
  induction m with
  | nil =>
    simp only [Memory.write]
    split <;> simp_all [Memory.wf]
  | cons d m ih =>
    have ht := Memory.wf_tail h
    simp only [Memory.write]
    split
    · rename_i hlt
      split
      · exact h
      · refine ⟨List.pairwise_cons.2 ⟨fun e he => ?_, h.1⟩, fun e he => ?_⟩
        · rcases List.mem_cons.1 he with rfl | he
          · exact hlt
          · exact Nat.lt_trans hlt (Memory.head_lt h he)
        · rcases List.mem_cons.1 he with rfl | he
          · assumption
          · exact h.2 e he
    · rename_i hge
      split
      · split
        · exact ht
        · refine ⟨List.pairwise_cons.2 ⟨(List.pairwise_cons.1 h.1).1, ht.1⟩, fun e he => ?_⟩
          rcases List.mem_cons.1 he with rfl | he
          · assumption
          · exact ht.2 e he
      · rename_i hne
        refine ⟨List.pairwise_cons.2 ⟨fun e he => ?_, (ih ht).1⟩, fun e he => ?_⟩
        · rcases Memory.mem_write he with he | ⟨rfl, -⟩
          · exact Memory.head_lt h he
          · show d.1 < a
            omega
        · rcases List.mem_cons.1 he with rfl | he
          · exact h.2 _ List.mem_cons_self
          · exact (ih ht).2 e he

theorem Memory.write_within {m : Memory} {cap a : Nat} (v : Byte) (h : m.within cap) (ha : a < cap) :
    (m.write a v).within cap := by
  intro c hc
  rcases Memory.mem_write hc with hc | ⟨rfl, -⟩
  · exact h c hc
  · exact ha

/-- Read after write (20_memory R44, R48). -/
theorem Memory.read_write {m : Memory} (a : Nat) (v : Byte) (x : Nat) (h : m.wf) :
    (m.write a v).read x = if x = a then v else m.read x := by
  induction m with
  | nil =>
    simp only [Memory.write]
    split
    · simp_all [Memory.read]
    · simp only [Memory.read]
      by_cases hx : x = a
      · subst hx; simp
      · have : ¬ a = x := by omega
        simp [hx, this]
  | cons d m ih =>
    have ht := Memory.wf_tail h
    have hb : ∀ y, y ≤ d.1 → Memory.read m y = 0x00#8 := fun y hy =>
      Memory.read_below fun e he => Nat.lt_of_le_of_lt hy (Memory.head_lt h he)
    simp only [Memory.write]
    split
    · rename_i hlt
      split
      · rename_i hv
        by_cases hx : x = a
        · subst hx; simp [Memory.read, hlt, hv]
        · simp [hx]
      · by_cases hx : x = a
        · subst hx; simp [Memory.read]
        · simp only [hx, if_false]
          by_cases hxa : x < a
          · have : x < d.1 := by omega
            simp [Memory.read, hxa, this]
          · have : ¬ a = x := by omega
            simp [Memory.read, hxa, this]
    · rename_i hge
      split
      · rename_i heq
        split
        · rename_i hv
          by_cases hx : x = a
          · subst hx; simp [hv, hb x (by omega)]
          · simp only [hx, if_false, Memory.read]
            by_cases hxa : x < d.1
            · simp [hxa, hb x (by omega)]
            · have : ¬ d.1 = x := by omega
              simp [hxa, this]
        · by_cases hx : x = a
          · subst hx; simp [Memory.read, heq]
          · have : ¬ d.1 = x := by omega
            simp [Memory.read, hx, this]
      · rename_i hne
        by_cases hx : x = a
        · subst hx
          simp [Memory.read, hge, hne, ih ht]
        · simp only [Memory.read, ih ht, hx, if_false]

@[simp] theorem Memory.readBytes_length (m : Memory) (a n : Nat) : (m.readBytes a n).length = n := by
  induction n generalizing a with
  | zero => rfl
  | succ n ih => simp [Memory.readBytes, ih]

theorem Memory.readBytes_getElem? (m : Memory) (a n j : Nat) :
    (m.readBytes a n)[j]? = if j < n then some (m.read (a + j)) else none := by
  induction n generalizing a j with
  | zero => simp [Memory.readBytes]
  | succ n ih =>
    cases j with
    | zero => simp [Memory.readBytes]
    | succ j => simp [Memory.readBytes, ih, Nat.add_right_comm, Nat.add_assoc]

@[simp] theorem Memory.readBytes_getElem (m : Memory) (a n j : Nat) (h : j < (m.readBytes a n).length) :
    (m.readBytes a n)[j] = m.read (a + j) := by
  have := Memory.readBytes_getElem? m a n j
  rw [List.getElem?_eq_getElem h] at this
  simp at h
  simpa [h] using this

/-- Two reads of the same length agree when each byte does. -/
theorem Memory.readBytes_congr {m m' : Memory} {a a' n : Nat} (h : ∀ j < n, m.read (a + j) = m'.read (a' + j)) :
    m.readBytes a n = m'.readBytes a' n := by
  apply List.ext_getElem <;> simp +contextual
  intro j hj
  exact h j hj

theorem Memory.readBytes_append (m : Memory) (a n k : Nat) :
    m.readBytes a (n + k) = m.readBytes a n ++ m.readBytes (a + n) k := by
  induction n generalizing a with
  | zero => simp [Memory.readBytes]
  | succ n ih =>
    rw [Nat.add_right_comm]
    simp [Memory.readBytes, ih, Nat.add_assoc, Nat.add_comm 1 n]

theorem Memory.readBytes_take (m : Memory) (a n k : Nat) (h : k ≤ n) :
    (m.readBytes a n).take k = m.readBytes a k := by
  obtain ⟨d, rfl⟩ := Nat.exists_eq_add_of_le h
  rw [Memory.readBytes_append, List.take_left' (by simp)]

theorem Memory.readBytes_drop (m : Memory) (a n k : Nat) (h : k ≤ n) :
    (m.readBytes a n).drop k = m.readBytes (a + k) (n - k) := by
  obtain ⟨d, rfl⟩ := Nat.exists_eq_add_of_le h
  rw [Memory.readBytes_append, List.drop_left' (by simp)]
  simp

theorem Memory.writeBytes_wf {m : Memory} (a : Nat) (v : Bytes) (h : m.wf) : (m.writeBytes a v).wf := by
  induction v generalizing m a with
  | nil => exact h
  | cons b v ih => exact ih (a + 1) (Memory.write_wf a b h)

theorem Memory.writeBytes_within {m : Memory} {cap a : Nat} (v : Bytes) (h : m.within cap)
    (ha : a + v.length ≤ cap) : (m.writeBytes a v).within cap := by
  induction v generalizing m a with
  | nil => exact h
  | cons b v ih =>
    simp only [List.length_cons] at ha
    exact ih (Memory.write_within b h (by omega)) (by omega)

/-- Each byte after a write of several: the byte written there, or the old one. -/
theorem Memory.read_writeBytes {m : Memory} (a : Nat) (v : Bytes) (x : Nat) (h : m.wf) :
    (m.writeBytes a v).read x = if a ≤ x then v[x - a]?.getD (m.read x) else m.read x := by
  induction v generalizing m a with
  | nil => simp [Memory.writeBytes]
  | cons b v ih =>
    rw [Memory.writeBytes, ih (a + 1) (Memory.write_wf a b h), Memory.read_write a b x h]
    by_cases h1 : x = a
    · subst h1; simp
    · by_cases h2 : a ≤ x
      · have : a + 1 ≤ x := by omega
        have e : x - a = (x - (a + 1)) + 1 := by omega
        simp [h1, h2, this, e]
      · have : ¬ a + 1 ≤ x := by omega
        simp [h1, h2, this]

end Sys2Proof.Machine
end

