-- ==== Sys2Proof/Laws/State.lean ====
section
/-! SUPPORT. What each named update of State leaves in each field. -/
namespace Sys2Proof.Machine
variable {rW lW : Nat}

/-! ### setPhase -/
@[simp] theorem State.setPhase_l (ph : Phase) (s : State rW lW) : (s.setPhase ph).l = s.l := rfl
@[simp] theorem State.setPhase_r (ph : Phase) (s : State rW lW) : (s.setPhase ph).r = s.r := rfl
@[simp] theorem State.setPhase_half (ph : Phase) (s : State rW lW) : (s.setPhase ph).half = s.half := rfl
@[simp] theorem State.setPhase_ridx (ph : Phase) (s : State rW lW) : (s.setPhase ph).ridx = s.ridx := rfl
@[simp] theorem State.setPhase_status (ph : Phase) (s : State rW lW) : (s.setPhase ph).status = withPhase ph s.status := rfl
@[simp] theorem State.setPhase_rounds (ph : Phase) (s : State rW lW) : (s.setPhase ph).rounds = s.rounds := rfl
@[simp] theorem State.setPhase_ilen (ph : Phase) (s : State rW lW) : (s.setPhase ph).ilen = s.ilen := rfl
@[simp] theorem State.setPhase_klen (ph : Phase) (s : State rW lW) : (s.setPhase ph).klen = s.klen := rfl
@[simp] theorem State.setPhase_olen (ph : Phase) (s : State rW lW) : (s.setPhase ph).olen = s.olen := rfl
@[simp] theorem State.setPhase_ibuf (ph : Phase) (s : State rW lW) : (s.setPhase ph).ibuf = s.ibuf := rfl
@[simp] theorem State.setPhase_kbuf (ph : Phase) (s : State rW lW) : (s.setPhase ph).kbuf = s.kbuf := rfl
@[simp] theorem State.setPhase_obuf (ph : Phase) (s : State rW lW) : (s.setPhase ph).obuf = s.obuf := rfl
@[simp] theorem State.setPhase_host (ph : Phase) (s : State rW lW) : (s.setPhase ph).host = s.host := rfl
@[simp] theorem State.setPhase_sched (ph : Phase) (s : State rW lW) : (s.setPhase ph).sched = s.sched := rfl
@[simp] theorem State.setPhase_responses (ph : Phase) (s : State rW lW) : (s.setPhase ph).responses = s.responses := rfl

/-! ### setErr -/
@[simp] theorem State.setErr_l (e : ErrCode) (s : State rW lW) : (s.setErr e).l = s.l := rfl
@[simp] theorem State.setErr_r (e : ErrCode) (s : State rW lW) : (s.setErr e).r = s.r := rfl
@[simp] theorem State.setErr_half (e : ErrCode) (s : State rW lW) : (s.setErr e).half = s.half := rfl
@[simp] theorem State.setErr_ridx (e : ErrCode) (s : State rW lW) : (s.setErr e).ridx = s.ridx := rfl
@[simp] theorem State.setErr_status (e : ErrCode) (s : State rW lW) : (s.setErr e).status = withErr e s.status := rfl
@[simp] theorem State.setErr_rounds (e : ErrCode) (s : State rW lW) : (s.setErr e).rounds = s.rounds := rfl
@[simp] theorem State.setErr_ilen (e : ErrCode) (s : State rW lW) : (s.setErr e).ilen = s.ilen := rfl
@[simp] theorem State.setErr_klen (e : ErrCode) (s : State rW lW) : (s.setErr e).klen = s.klen := rfl
@[simp] theorem State.setErr_olen (e : ErrCode) (s : State rW lW) : (s.setErr e).olen = s.olen := rfl
@[simp] theorem State.setErr_ibuf (e : ErrCode) (s : State rW lW) : (s.setErr e).ibuf = s.ibuf := rfl
@[simp] theorem State.setErr_kbuf (e : ErrCode) (s : State rW lW) : (s.setErr e).kbuf = s.kbuf := rfl
@[simp] theorem State.setErr_obuf (e : ErrCode) (s : State rW lW) : (s.setErr e).obuf = s.obuf := rfl
@[simp] theorem State.setErr_host (e : ErrCode) (s : State rW lW) : (s.setErr e).host = s.host := rfl
@[simp] theorem State.setErr_sched (e : ErrCode) (s : State rW lW) : (s.setErr e).sched = s.sched := rfl
@[simp] theorem State.setErr_responses (e : ErrCode) (s : State rW lW) : (s.setErr e).responses = s.responses := rfl

/-! ### raise -/
@[simp] theorem State.raise_l (e : ErrCode) (s : State rW lW) : (s.raise e).l = s.l := rfl
@[simp] theorem State.raise_r (e : ErrCode) (s : State rW lW) : (s.raise e).r = s.r := rfl
@[simp] theorem State.raise_half (e : ErrCode) (s : State rW lW) : (s.raise e).half = s.half := rfl
@[simp] theorem State.raise_ridx (e : ErrCode) (s : State rW lW) : (s.raise e).ridx = s.ridx := rfl
@[simp] theorem State.raise_status (e : ErrCode) (s : State rW lW) : (s.raise e).status = withPhase .error (withErr e s.status) := rfl
@[simp] theorem State.raise_rounds (e : ErrCode) (s : State rW lW) : (s.raise e).rounds = s.rounds := rfl
@[simp] theorem State.raise_ilen (e : ErrCode) (s : State rW lW) : (s.raise e).ilen = s.ilen := rfl
@[simp] theorem State.raise_klen (e : ErrCode) (s : State rW lW) : (s.raise e).klen = s.klen := rfl
@[simp] theorem State.raise_olen (e : ErrCode) (s : State rW lW) : (s.raise e).olen = s.olen := rfl
@[simp] theorem State.raise_ibuf (e : ErrCode) (s : State rW lW) : (s.raise e).ibuf = s.ibuf := rfl
@[simp] theorem State.raise_kbuf (e : ErrCode) (s : State rW lW) : (s.raise e).kbuf = s.kbuf := rfl
@[simp] theorem State.raise_obuf (e : ErrCode) (s : State rW lW) : (s.raise e).obuf = s.obuf := rfl
@[simp] theorem State.raise_host (e : ErrCode) (s : State rW lW) : (s.raise e).host = s.host := rfl
@[simp] theorem State.raise_sched (e : ErrCode) (s : State rW lW) : (s.raise e).sched = s.sched := rfl
@[simp] theorem State.raise_responses (e : ErrCode) (s : State rW lW) : (s.raise e).responses = s.responses := rfl

/-! ### accept -/
@[simp] theorem State.accept_l (ph : Phase) (s : State rW lW) : (s.accept ph).l = s.l := rfl
@[simp] theorem State.accept_r (ph : Phase) (s : State rW lW) : (s.accept ph).r = s.r := rfl
@[simp] theorem State.accept_half (ph : Phase) (s : State rW lW) : (s.accept ph).half = s.half := rfl
@[simp] theorem State.accept_ridx (ph : Phase) (s : State rW lW) : (s.accept ph).ridx = s.ridx := rfl
@[simp] theorem State.accept_status (ph : Phase) (s : State rW lW) : (s.accept ph).status = withPhase ph (withErr .none s.status) := rfl
@[simp] theorem State.accept_rounds (ph : Phase) (s : State rW lW) : (s.accept ph).rounds = s.rounds := rfl
@[simp] theorem State.accept_ilen (ph : Phase) (s : State rW lW) : (s.accept ph).ilen = s.ilen := rfl
@[simp] theorem State.accept_klen (ph : Phase) (s : State rW lW) : (s.accept ph).klen = s.klen := rfl
@[simp] theorem State.accept_olen (ph : Phase) (s : State rW lW) : (s.accept ph).olen = s.olen := rfl
@[simp] theorem State.accept_ibuf (ph : Phase) (s : State rW lW) : (s.accept ph).ibuf = s.ibuf := rfl
@[simp] theorem State.accept_kbuf (ph : Phase) (s : State rW lW) : (s.accept ph).kbuf = s.kbuf := rfl
@[simp] theorem State.accept_obuf (ph : Phase) (s : State rW lW) : (s.accept ph).obuf = s.obuf := rfl
@[simp] theorem State.accept_host (ph : Phase) (s : State rW lW) : (s.accept ph).host = s.host := rfl
@[simp] theorem State.accept_sched (ph : Phase) (s : State rW lW) : (s.accept ph).sched = s.sched := rfl
@[simp] theorem State.accept_responses (ph : Phase) (s : State rW lW) : (s.accept ph).responses = s.responses := rfl

/-! ### respond -/
@[simp] theorem State.respond_l (v : Nat) (s : State rW lW) : (s.respond v).l = s.l := rfl
@[simp] theorem State.respond_r (v : Nat) (s : State rW lW) : (s.respond v).r = s.r := rfl
@[simp] theorem State.respond_half (v : Nat) (s : State rW lW) : (s.respond v).half = s.half := rfl
@[simp] theorem State.respond_ridx (v : Nat) (s : State rW lW) : (s.respond v).ridx = s.ridx := rfl
@[simp] theorem State.respond_status (v : Nat) (s : State rW lW) : (s.respond v).status = s.status := rfl
@[simp] theorem State.respond_rounds (v : Nat) (s : State rW lW) : (s.respond v).rounds = s.rounds := rfl
@[simp] theorem State.respond_ilen (v : Nat) (s : State rW lW) : (s.respond v).ilen = s.ilen := rfl
@[simp] theorem State.respond_klen (v : Nat) (s : State rW lW) : (s.respond v).klen = s.klen := rfl
@[simp] theorem State.respond_olen (v : Nat) (s : State rW lW) : (s.respond v).olen = s.olen := rfl
@[simp] theorem State.respond_ibuf (v : Nat) (s : State rW lW) : (s.respond v).ibuf = s.ibuf := rfl
@[simp] theorem State.respond_kbuf (v : Nat) (s : State rW lW) : (s.respond v).kbuf = s.kbuf := rfl
@[simp] theorem State.respond_obuf (v : Nat) (s : State rW lW) : (s.respond v).obuf = s.obuf := rfl
@[simp] theorem State.respond_host (v : Nat) (s : State rW lW) : (s.respond v).host = s.host := rfl
@[simp] theorem State.respond_sched (v : Nat) (s : State rW lW) : (s.respond v).sched = s.sched := rfl
@[simp] theorem State.respond_responses (v : Nat) (s : State rW lW) : (s.respond v).responses = s.responses ++ [v] := rfl

/-! ### issue -/
@[simp] theorem State.issue_l (ls : List Line) (s : State rW lW) : (s.issue ls).l = s.l := rfl
@[simp] theorem State.issue_r (ls : List Line) (s : State rW lW) : (s.issue ls).r = s.r := rfl
@[simp] theorem State.issue_half (ls : List Line) (s : State rW lW) : (s.issue ls).half = s.half := rfl
@[simp] theorem State.issue_ridx (ls : List Line) (s : State rW lW) : (s.issue ls).ridx = s.ridx := rfl
@[simp] theorem State.issue_status (ls : List Line) (s : State rW lW) : (s.issue ls).status = s.status := rfl
@[simp] theorem State.issue_rounds (ls : List Line) (s : State rW lW) : (s.issue ls).rounds = s.rounds := rfl
@[simp] theorem State.issue_ilen (ls : List Line) (s : State rW lW) : (s.issue ls).ilen = s.ilen := rfl
@[simp] theorem State.issue_klen (ls : List Line) (s : State rW lW) : (s.issue ls).klen = s.klen := rfl
@[simp] theorem State.issue_olen (ls : List Line) (s : State rW lW) : (s.issue ls).olen = s.olen := rfl
@[simp] theorem State.issue_ibuf (ls : List Line) (s : State rW lW) : (s.issue ls).ibuf = s.ibuf := rfl
@[simp] theorem State.issue_kbuf (ls : List Line) (s : State rW lW) : (s.issue ls).kbuf = s.kbuf := rfl
@[simp] theorem State.issue_obuf (ls : List Line) (s : State rW lW) : (s.issue ls).obuf = s.obuf := rfl
@[simp] theorem State.issue_host (ls : List Line) (s : State rW lW) : (s.issue ls).host = ls ++ s.host := rfl
@[simp] theorem State.issue_sched (ls : List Line) (s : State rW lW) : (s.issue ls).sched = s.sched := rfl
@[simp] theorem State.issue_responses (ls : List Line) (s : State rW lW) : (s.issue ls).responses = s.responses := rfl

/-! ### dropTurn -/
@[simp] theorem State.dropTurn_l (s : State rW lW) : (s.dropTurn).l = s.l := rfl
@[simp] theorem State.dropTurn_r (s : State rW lW) : (s.dropTurn).r = s.r := rfl
@[simp] theorem State.dropTurn_half (s : State rW lW) : (s.dropTurn).half = s.half := rfl
@[simp] theorem State.dropTurn_ridx (s : State rW lW) : (s.dropTurn).ridx = s.ridx := rfl
@[simp] theorem State.dropTurn_status (s : State rW lW) : (s.dropTurn).status = s.status := rfl
@[simp] theorem State.dropTurn_rounds (s : State rW lW) : (s.dropTurn).rounds = s.rounds := rfl
@[simp] theorem State.dropTurn_ilen (s : State rW lW) : (s.dropTurn).ilen = s.ilen := rfl
@[simp] theorem State.dropTurn_klen (s : State rW lW) : (s.dropTurn).klen = s.klen := rfl
@[simp] theorem State.dropTurn_olen (s : State rW lW) : (s.dropTurn).olen = s.olen := rfl
@[simp] theorem State.dropTurn_ibuf (s : State rW lW) : (s.dropTurn).ibuf = s.ibuf := rfl
@[simp] theorem State.dropTurn_kbuf (s : State rW lW) : (s.dropTurn).kbuf = s.kbuf := rfl
@[simp] theorem State.dropTurn_obuf (s : State rW lW) : (s.dropTurn).obuf = s.obuf := rfl
@[simp] theorem State.dropTurn_host (s : State rW lW) : (s.dropTurn).host = s.host := rfl
@[simp] theorem State.dropTurn_sched (s : State rW lW) : (s.dropTurn).sched = s.sched.tail := rfl
@[simp] theorem State.dropTurn_responses (s : State rW lW) : (s.dropTurn).responses = s.responses := rfl

/-! ### dropLine -/
@[simp] theorem State.dropLine_l (s : State rW lW) : (s.dropLine).l = s.l := rfl
@[simp] theorem State.dropLine_r (s : State rW lW) : (s.dropLine).r = s.r := rfl
@[simp] theorem State.dropLine_half (s : State rW lW) : (s.dropLine).half = s.half := rfl
@[simp] theorem State.dropLine_ridx (s : State rW lW) : (s.dropLine).ridx = s.ridx := rfl
@[simp] theorem State.dropLine_status (s : State rW lW) : (s.dropLine).status = s.status := rfl
@[simp] theorem State.dropLine_rounds (s : State rW lW) : (s.dropLine).rounds = s.rounds := rfl
@[simp] theorem State.dropLine_ilen (s : State rW lW) : (s.dropLine).ilen = s.ilen := rfl
@[simp] theorem State.dropLine_klen (s : State rW lW) : (s.dropLine).klen = s.klen := rfl
@[simp] theorem State.dropLine_olen (s : State rW lW) : (s.dropLine).olen = s.olen := rfl
@[simp] theorem State.dropLine_ibuf (s : State rW lW) : (s.dropLine).ibuf = s.ibuf := rfl
@[simp] theorem State.dropLine_kbuf (s : State rW lW) : (s.dropLine).kbuf = s.kbuf := rfl
@[simp] theorem State.dropLine_obuf (s : State rW lW) : (s.dropLine).obuf = s.obuf := rfl
@[simp] theorem State.dropLine_host (s : State rW lW) : (s.dropLine).host = s.host.tail := rfl
@[simp] theorem State.dropLine_sched (s : State rW lW) : (s.dropLine).sched = s.sched := rfl
@[simp] theorem State.dropLine_responses (s : State rW lW) : (s.dropLine).responses = s.responses := rfl

/-! ### applyReset -/
@[simp] theorem State.applyReset_l (s : State rW lW) : (s.applyReset).l = [] := rfl
@[simp] theorem State.applyReset_r (s : State rW lW) : (s.applyReset).r = [] := rfl
@[simp] theorem State.applyReset_half (s : State rW lW) : (s.applyReset).half = 0 := rfl
@[simp] theorem State.applyReset_ridx (s : State rW lW) : (s.applyReset).ridx = 0 := rfl
@[simp] theorem State.applyReset_status (s : State rW lW) : (s.applyReset).status = 0x00#8 := rfl
@[simp] theorem State.applyReset_rounds (s : State rW lW) : (s.applyReset).rounds = 0 := rfl
@[simp] theorem State.applyReset_ilen (s : State rW lW) : (s.applyReset).ilen = 0 := rfl
@[simp] theorem State.applyReset_klen (s : State rW lW) : (s.applyReset).klen = 0 := rfl
@[simp] theorem State.applyReset_olen (s : State rW lW) : (s.applyReset).olen = 0 := rfl
@[simp] theorem State.applyReset_ibuf (s : State rW lW) : (s.applyReset).ibuf = [] := rfl
@[simp] theorem State.applyReset_kbuf (s : State rW lW) : (s.applyReset).kbuf = [] := rfl
@[simp] theorem State.applyReset_obuf (s : State rW lW) : (s.applyReset).obuf = [] := rfl
@[simp] theorem State.applyReset_host (s : State rW lW) : (s.applyReset).host = s.host := rfl
@[simp] theorem State.applyReset_sched (s : State rW lW) : (s.applyReset).sched = s.sched := rfl
@[simp] theorem State.applyReset_responses (s : State rW lW) : (s.applyReset).responses = s.responses := rfl

/-! ### writeReg, writeBuf: fields neither of them writes -/
@[simp] theorem State.writeReg_l (s : State rW lW) (v : Nat) (g : Reg) : (s.writeReg v g).l = s.l := by cases g <;> rfl
@[simp] theorem State.writeReg_r (s : State rW lW) (v : Nat) (g : Reg) : (s.writeReg v g).r = s.r := by cases g <;> rfl
@[simp] theorem State.writeReg_half (s : State rW lW) (v : Nat) (g : Reg) : (s.writeReg v g).half = s.half := by cases g <;> rfl
@[simp] theorem State.writeReg_ridx (s : State rW lW) (v : Nat) (g : Reg) : (s.writeReg v g).ridx = s.ridx := by cases g <;> rfl
@[simp] theorem State.writeReg_status (s : State rW lW) (v : Nat) (g : Reg) : (s.writeReg v g).status = s.status := by cases g <;> rfl
@[simp] theorem State.writeReg_olen (s : State rW lW) (v : Nat) (g : Reg) : (s.writeReg v g).olen = s.olen := by cases g <;> rfl
@[simp] theorem State.writeReg_ibuf (s : State rW lW) (v : Nat) (g : Reg) : (s.writeReg v g).ibuf = s.ibuf := by cases g <;> rfl
@[simp] theorem State.writeReg_kbuf (s : State rW lW) (v : Nat) (g : Reg) : (s.writeReg v g).kbuf = s.kbuf := by cases g <;> rfl
@[simp] theorem State.writeReg_obuf (s : State rW lW) (v : Nat) (g : Reg) : (s.writeReg v g).obuf = s.obuf := by cases g <;> rfl
@[simp] theorem State.writeReg_host (s : State rW lW) (v : Nat) (g : Reg) : (s.writeReg v g).host = s.host := by cases g <;> rfl
@[simp] theorem State.writeReg_sched (s : State rW lW) (v : Nat) (g : Reg) : (s.writeReg v g).sched = s.sched := by cases g <;> rfl
@[simp] theorem State.writeReg_responses (s : State rW lW) (v : Nat) (g : Reg) : (s.writeReg v g).responses = s.responses := by cases g <;> rfl
@[simp] theorem State.writeBuf_l (s : State rW lW) (i : Nat) (v : Byte) (b : Buf) : (s.writeBuf i v b).l = s.l := by cases b <;> rfl
@[simp] theorem State.writeBuf_r (s : State rW lW) (i : Nat) (v : Byte) (b : Buf) : (s.writeBuf i v b).r = s.r := by cases b <;> rfl
@[simp] theorem State.writeBuf_half (s : State rW lW) (i : Nat) (v : Byte) (b : Buf) : (s.writeBuf i v b).half = s.half := by cases b <;> rfl
@[simp] theorem State.writeBuf_ridx (s : State rW lW) (i : Nat) (v : Byte) (b : Buf) : (s.writeBuf i v b).ridx = s.ridx := by cases b <;> rfl
@[simp] theorem State.writeBuf_status (s : State rW lW) (i : Nat) (v : Byte) (b : Buf) : (s.writeBuf i v b).status = s.status := by cases b <;> rfl
@[simp] theorem State.writeBuf_rounds (s : State rW lW) (i : Nat) (v : Byte) (b : Buf) : (s.writeBuf i v b).rounds = s.rounds := by cases b <;> rfl
@[simp] theorem State.writeBuf_ilen (s : State rW lW) (i : Nat) (v : Byte) (b : Buf) : (s.writeBuf i v b).ilen = s.ilen := by cases b <;> rfl
@[simp] theorem State.writeBuf_klen (s : State rW lW) (i : Nat) (v : Byte) (b : Buf) : (s.writeBuf i v b).klen = s.klen := by cases b <;> rfl
@[simp] theorem State.writeBuf_olen (s : State rW lW) (i : Nat) (v : Byte) (b : Buf) : (s.writeBuf i v b).olen = s.olen := by cases b <;> rfl
@[simp] theorem State.writeBuf_obuf (s : State rW lW) (i : Nat) (v : Byte) (b : Buf) : (s.writeBuf i v b).obuf = s.obuf := by cases b <;> rfl
@[simp] theorem State.writeBuf_host (s : State rW lW) (i : Nat) (v : Byte) (b : Buf) : (s.writeBuf i v b).host = s.host := by cases b <;> rfl
@[simp] theorem State.writeBuf_sched (s : State rW lW) (i : Nat) (v : Byte) (b : Buf) : (s.writeBuf i v b).sched = s.sched := by cases b <;> rfl
@[simp] theorem State.writeBuf_responses (s : State rW lW) (i : Nat) (v : Byte) (b : Buf) : (s.writeBuf i v b).responses = s.responses := by cases b <;> rfl

end Sys2Proof.Machine
end

