-- ==== Sys2Proof/Laws/Status.lean ====
section
/-! SUPPORT. The fields of `STATUS` after each write of one (10_state R15), and the phase after each named update. -/
namespace Sys2Proof.Machine
variable {rW lW : Nat}

@[simp] theorem statusPhase_pack : ∀ (r e : BitVec 3) (p : BitVec 2), statusPhase (packStatus r e p) = p := by decide
@[simp] theorem statusErr_pack : ∀ (r e : BitVec 3) (p : BitVec 2), statusErr (packStatus r e p) = e := by decide
@[simp] theorem statusReserved_pack : ∀ (r e : BitVec 3) (p : BitVec 2), statusReserved (packStatus r e p) = r := by
  decide

/-- `STATUS` is its three fields. -/
theorem packStatus_fields : ∀ b : Byte, packStatus (statusReserved b) (statusErr b) (statusPhase b) = b := by decide

@[simp] theorem statusPhase_withPhase (ph : Phase) (b : Byte) : statusPhase (withPhase ph b) = ph.code := by
  simp [withPhase]
@[simp] theorem statusErr_withPhase (ph : Phase) (b : Byte) : statusErr (withPhase ph b) = statusErr b := by
  simp [withPhase]
@[simp] theorem statusReserved_withPhase (ph : Phase) (b : Byte) : statusReserved (withPhase ph b) = statusReserved b := by
  simp [withPhase]
@[simp] theorem statusPhase_withErr (e : ErrCode) (b : Byte) : statusPhase (withErr e b) = statusPhase b := by
  simp [withErr]
@[simp] theorem statusErr_withErr (e : ErrCode) (b : Byte) : statusErr (withErr e b) = e.code := by
  simp [withErr]
@[simp] theorem statusReserved_withErr (e : ErrCode) (b : Byte) : statusReserved (withErr e b) = statusReserved b := by
  simp [withErr]

/-- The two writes together leave the reserved bits only. -/
theorem withPhase_withErr (ph : Phase) (e : ErrCode) (b : Byte) :
    withPhase ph (withErr e b) = packStatus (statusReserved b) e.code ph.code := by
  simp [withPhase]

/-- The four phases have different codes (10_state R15). -/
@[simp] theorem Phase.code_inj : ∀ p q : Phase, p.code = q.code ↔ p = q := by
  intro p q; cases p <;> cases q <;> decide

@[simp] theorem Phase.code_beq : ∀ p q : Phase, (p.code == q.code) = decide (p = q) := by
  intro p q; cases p <;> cases q <;> decide

theorem State.phaseIs_iff (s : State rW lW) (ph : Phase) : s.phaseIs ph = true ↔ statusPhase s.status = ph.code := by
  simp [State.phaseIs]

/-- One phase at a time. -/
theorem State.phaseIs_unique {s : State rW lW} {p q : Phase} (hp : s.phaseIs p = true) (hq : s.phaseIs q = true) : p = q := by
  rw [State.phaseIs_iff] at hp hq
  exact (Phase.code_inj p q).1 (hp.symm.trans hq)

@[simp] theorem State.setPhase_phaseIs (s : State rW lW) (p q : Phase) : (s.setPhase p).phaseIs q = decide (p = q) := by
  simp [State.phaseIs]
@[simp] theorem State.raise_phaseIs (s : State rW lW) (e : ErrCode) (q : Phase) :
    (s.raise e).phaseIs q = decide (Phase.error = q) := by
  simp [State.phaseIs]
@[simp] theorem State.accept_phaseIs (s : State rW lW) (p q : Phase) : (s.accept p).phaseIs q = decide (p = q) := by
  simp [State.phaseIs]

@[simp] theorem State.raise_busy (s : State rW lW) (e : ErrCode) : (s.raise e).busy = false := by
  simp [State.busy]
@[simp] theorem State.accept_busy (s : State rW lW) (p : Phase) : (s.accept p).busy = decide (p = .busy) := by
  simp [State.busy]
@[simp] theorem State.setPhase_busy (s : State rW lW) (p : Phase) : (s.setPhase p).busy = decide (p = .busy) := by
  simp [State.busy]

/-- The phase is read from `STATUS` alone. -/
theorem State.busy_congr {s t : State rW lW} (h : s.status = t.status) : s.busy = t.busy := by
  simp [State.busy, State.phaseIs, h]

/-- The enabled engine step is read from `STATUS`, `RIDX` and `ROUNDS` alone (10_state R14). -/
theorem State.engineStep_congr {s t : State rW lW} (h1 : s.status = t.status) (h2 : s.ridx = t.ridx)
    (h3 : s.rounds = t.rounds) : s.engineStep = t.engineStep := by
  simp [State.engineStep, State.busy_congr h1, h2, h3]

@[simp] theorem State.dropTurn_busy (s : State rW lW) : s.dropTurn.busy = s.busy := State.busy_congr rfl
@[simp] theorem State.dropLine_busy (s : State rW lW) : s.dropLine.busy = s.busy := State.busy_congr rfl
@[simp] theorem State.dropTurn_engineStep (s : State rW lW) : s.dropTurn.engineStep = s.engineStep :=
  State.engineStep_congr rfl rfl rfl

theorem State.engineStep_eq_round {s : State rW lW} :
    s.engineStep = some .round ↔ s.busy = true ∧ s.ridx < s.rounds := by
  unfold State.engineStep
  split
  · split
    · simp_all
    · split <;> simp_all
  · simp_all

theorem State.engineStep_eq_finish {s : State rW lW} :
    s.engineStep = some .finish ↔ s.busy = true ∧ s.ridx = s.rounds := by
  unfold State.engineStep
  split
  · split
    · rename_i h
      have : s.ridx ≠ s.rounds := fun e => by simp [e] at h
      simp_all
    · split <;> simp_all
  · simp_all

/-- The engine's step is `ROUND` or `FINISH` or none (10_state R14). -/
theorem State.engineStep_cases (s : State rW lW) :
    s.engineStep = some .round ∨ s.engineStep = some .finish ∨ s.engineStep = none := by
  unfold State.engineStep
  split
  · split
    · exact .inl rfl
    · split
      · exact .inr (.inl rfl)
      · exact .inr (.inr rfl)
  · exact .inr (.inr rfl)

end Sys2Proof.Machine
end

