-- ==== Sys2Proof/Laws/Ops.lean ====
section
/-! SUPPORT. What each shared operation answers, once: `MemRead`, `MemWrite`, `take`, the operands, the result, the XOR
unit, the write lock. -/
namespace Sys2Proof.Machine
variable {rW lW : Nat}

@[simp] theorem settle_ok (s : State rW lW) : settle (.ok s) = .next s := rfl
@[simp] theorem settle_pure (s : State rW lW) : settle (pure s) = .next s := rfl

theorem settle_eq_next {x : Except Stop (State rW lW)} {t : State rW lW} : settle x = .next t ↔ x = .ok t := by
  rcases x with (f | r) | s <;> simp [settle]

theorem writeLocked_busy {s : State rW lW} {f : State rW lW → Result rW lW} (h : s.busy = true) : writeLocked s f = .next s := by
  simp [writeLocked, h]

theorem writeLocked_free {s : State rW lW} {f : State rW lW → Result rW lW} (h : s.busy = false) : writeLocked s f = f s := by
  simp [writeLocked, h]

/-- A write-locked step is no step at all, or the step itself while the phase is not `BUSY` (20_memory R52). -/
theorem writeLocked_next {s t : State rW lW} {f : State rW lW → Result rW lW} (h : writeLocked s f = .next t) :
    (s.busy = true ∧ t = s) ∨ (s.busy = false ∧ f s = .next t) := by
  cases hb : s.busy
  · exact .inr ⟨rfl, by rwa [writeLocked_free hb] at h⟩
  · rw [writeLocked_busy hb] at h
    cases h
    exact .inl ⟨rfl, rfl⟩

theorem memRead_ok {cap : Nat} {m : Memory} {addr n : Nat} (h : addr + n ≤ cap) :
    memRead cap m addr n = .ok (m.readBytes addr n) := by
  simp [memRead, h]

theorem memRead_eq_ok {cap : Nat} {m : Memory} {addr n : Nat} {v : Bytes} :
    memRead cap m addr n = .ok v ↔ addr + n ≤ cap ∧ m.readBytes addr n = v := by
  unfold memRead; split <;> simp_all

theorem memWrite_ok {cap : Nat} {m : Memory} {addr n : Nat} {v : Bytes} (hl : v.length = n) (h : addr + n ≤ cap) :
    memWrite cap m addr n v = .ok (m.writeBytes addr v) := by
  simp [memWrite, h, hl]

theorem memWrite_eq_ok {cap : Nat} {m m' : Memory} {addr n : Nat} {v : Bytes} :
    memWrite cap m addr n v = .ok m' ↔ (v.length = n ∧ addr + n ≤ cap) ∧ m.writeBytes addr v = m' := by
  unfold memWrite; split <;> simp_all

theorem takeBytes_ok {n : Nat} {a : Bytes} (h : n ≤ a.length) : takeBytes n a = .ok (a.take n) := by
  simp [takeBytes, h]

theorem takeBytes_eq_ok {n : Nat} {a v : Bytes} : takeBytes n a = .ok v ↔ n ≤ a.length ∧ a.take n = v := by
  unfold takeBytes; split <;> simp_all

@[simp] theorem digest_length (hash : Bytes → Vector Byte Config.digestLen) (m k : Bytes) :
    (digest hash m k).length = Config.digestLen := by
  simp [digest]

@[simp] theorem xorBytes_length (a b : Bytes) : (xorBytes a b).length = min a.length b.length := by
  simp [xorBytes]

theorem xorCombine_ok {a b : Bytes} (h : a.length = b.length) : xorCombine a b = .ok (xorBytes a b) := by
  simp [xorCombine, h]

theorem xorCombine_eq_ok {a b c : Bytes} : xorCombine a b = .ok c ↔ a.length = b.length ∧ xorBytes a b = c := by
  unfold xorCombine; split <;> simp_all

/-- `x ^ y ^ y = x` (42_block_xor_combine R123), of operands of one length. -/
theorem xorBytes_cancel {a b : Bytes} (h : a.length = b.length) : xorBytes (xorBytes a b) b = a := by
  apply List.ext_getElem
  · simp [h]
  · intro j h1 h2
    simp [xorBytes]

/-- What `storeResult` leaves: the result, then zeros to the end of `OBUF`, its length in `OLEN`, nothing else
(10_state R23). -/
theorem storeResult_ok {s : State rW lW} {res : Bytes} (hl : res.length ≤ Config.obufCap) (hw : s.obuf.wf) :
    ∃ m : Memory, storeResult res s = .ok { s with olen := BitVec.ofNat lW res.length, obuf := m } ∧ m.wf ∧
      (∀ j, m.read j = if j < Config.obufCap then res[j]?.getD 0x00#8 else s.obuf.read j) ∧
      (s.obuf.within Config.obufCap → m.within Config.obufCap) := by
  refine ⟨(s.obuf.writeBytes 0 res).writeBytes res.length (zeros (Config.obufCap - res.length)), ?_, ?_, ?_, ?_⟩
  · simp only [storeResult]
    rw [memWrite_ok rfl (by omega)]
    simp only [bind, Except.bind]
    rw [memWrite_ok (by simp) (by omega)]
    rfl
  · exact Memory.writeBytes_wf _ _ (Memory.writeBytes_wf _ _ hw)
  · intro j
    rw [Memory.read_writeBytes _ _ _ (Memory.writeBytes_wf _ _ hw), Memory.read_writeBytes _ _ _ hw]
    simp only [Nat.zero_le, if_true, Nat.sub_zero]
    by_cases h1 : res.length ≤ j
    · by_cases h2 : j < Config.obufCap
      · have : j - res.length < Config.obufCap - res.length := by omega
        simp [h1, h2, this]
      · have : ¬ j - res.length < Config.obufCap - res.length := by omega
        simp [h1, h2, this]
    · have h2 : j < Config.obufCap := by omega
      have h3 : j < res.length := by omega
      simp [h1, h2, h3]
  · intro hin
    exact Memory.writeBytes_within _ (Memory.writeBytes_within _ hin (by omega)) (by simp at hl ⊢; omega)

/-- `storeResult` writes `OLEN` and `OBUF` only. -/
theorem storeResult_frame {s t : State rW lW} {res : Bytes} (h : storeResult res s = .ok t) :
    res.length ≤ Config.obufCap ∧
      ∃ m, t = { s with olen := BitVec.ofNat lW res.length, obuf := m } := by
  simp only [storeResult, bind, Except.bind] at h
  split at h
  · cases h
  · rename_i m1 h1
    split at h
    · cases h
    · rename_i m2 h2
      cases h
      exact ⟨by have := (memWrite_eq_ok.1 h1).1.2; omega, m2, rfl⟩

end Sys2Proof.Machine
end

