-- ==== Sys2Proof/Laws/Commands.lean ====
section
/-! SUPPORT. The answer of each command's and engine step's computation where it completes, and the expansions of the
pseudo-instructions as lists. -/
namespace Sys2Proof.Machine
variable {rW lW : Nat}
open Sys2Proof.Safety

theorem firstHalf_ok {s : State rW lW} (h : s.blockLen / 2 ≤ Config.digestLen) :
    firstHalf s = .ok (s.ibuf.readBytes 0 (s.blockLen / 2)) :=
  memRead_ok (by simp at h ⊢; omega)

theorem secondHalf_ok {s : State rW lW} (h : s.blockLen / 2 ≤ Config.digestLen) :
    secondHalf s = .ok (s.ibuf.readBytes (s.blockLen / 2) (s.blockLen / 2)) :=
  memRead_ok (by simp at h ⊢; omega)

/-- The state of an accepted `XFORM` (40_feistel_round_engine R81, R85). -/
def xformed (s : State rW lW) : State rW lW :=
  { s with
    half := BitVec.ofNat 8 (s.blockLen / 2)
    l := s.ibuf.readBytes 0 (s.blockLen / 2)
    r := s.ibuf.readBytes (s.blockLen / 2) (s.blockLen / 2)
    ridx := 0 }.accept .busy

theorem xformAccept_ok {p : Params} {s : State rW lW} (h : XformReady p s) : xformAccept p s = .ok (xformed s) := by
  obtain ⟨-, h1, h2, h3⟩ := h
  simp only [xformAccept]
  rw [if_neg (by omega), if_neg (by omega), if_neg (by omega), firstHalf_ok h2, secondHalf_ok h2]
  rfl

/-- `XFORM`'s accept step raises one of the three errors, or is ready and splits (R81). -/
theorem xformAccept_cases {p : Params} {s : State rW lW} (hb : s.busy = false) :
    (∃ e, e ≠ ErrCode.none ∧ xformAccept p s = .ok (s.raise e)) ∨
      (XformReady p s ∧ xformAccept p s = .ok (xformed s)) := by
  by_cases h1 : s.blockLen % 2 = 1
  · exact .inl ⟨.invalidInputLength, by decide, by simp only [xformAccept]; rw [if_pos h1]⟩
  by_cases h2 : s.blockLen / 2 > Config.digestLen
  · exact .inl ⟨.blockTooLarge, by decide, by simp only [xformAccept]; rw [if_neg h1, if_pos h2]⟩
  by_cases h3 : s.keyLen > p.kbufCap
  · exact .inl ⟨.resourceExhausted, by decide, by simp only [xformAccept]; rw [if_neg h1, if_neg h2, if_pos h3]⟩
  have h : XformReady p s := ⟨hb, by omega, by omega, by omega⟩
  exact .inr ⟨h, xformAccept_ok h⟩

/-- The block operand is the two halves (20_memory R41). -/
theorem blockBytes_take (s : State rW lW) : (blockBytes s).take (s.blockLen / 2) = s.ibuf.readBytes 0 (s.blockLen / 2) :=
  Memory.readBytes_take _ _ _ _ (by omega)

theorem blockBytes_drop {s : State rW lW} (h : s.blockLen % 2 = 0) :
    (blockBytes s).drop (s.blockLen / 2) = s.ibuf.readBytes (s.blockLen / 2) (s.blockLen / 2) := by
  rw [Memory.readBytes_drop _ _ _ _ (by omega), Nat.zero_add]
  congr 1
  omega

/-- `DIGEST` where both operands fit (41_hash_round_function_wrapper R115). -/
theorem digestCommand_ok {p : Params} {s : State rW lW} (h1 : s.blockLen ≤ Config.ibufCap) (h2 : s.keyLen ≤ p.kbufCap) :
    digestCommand p s = (do
      let t ← storeResult (digest p.hash (blockBytes s) (keyBytes s)) s
      return t.accept .done) := by
  simp only [digestCommand, messageOperand, keyOperand, readIbuf]
  rw [if_neg (by omega), if_neg (by omega), memRead_ok (by omega), memRead_ok (by omega)]
  rfl

/-- `XORC` where the halves exist and fit (42_block_xor_combine R124). -/
theorem xorCommand_ok {s : State rW lW} (h1 : s.blockLen % 2 = 0) (h2 : s.blockLen ≤ Config.ibufCap) :
    xorCommand s = (do
      let t ← storeResult (xorBytes (s.ibuf.readBytes 0 (s.blockLen / 2))
        (s.ibuf.readBytes (s.blockLen / 2) (s.blockLen / 2))) s
      return t.accept .done) := by
  have h : s.blockLen / 2 ≤ Config.digestLen := by simp at h2 ⊢; omega
  simp only [xorCommand, firstHalf_ok h, secondHalf_ok h]
  rw [if_neg (by omega), if_neg (by omega)]
  simp only [bind, Except.bind]
  rw [xorCombine_ok (by simp)]

theorem roundStep_ok {p : Params} {s : State rW lW} (h1 : s.keyLen ≤ p.kbufCap) (h2 : s.halfLen ≤ Config.digestLen)
    (h3 : s.l.length = s.halfLen) :
    roundStep p s = .ok { s with
      l := s.r
      r := xorBytes s.l ((digest p.hash s.r (keyBytes s)).take s.halfLen)
      ridx := s.ridx + 1 } := by
  simp only [roundStep, keyOperand]
  rw [memRead_ok (by omega)]
  simp only [bind, Except.bind]
  rw [takeBytes_ok (by simpa using h2)]
  simp only []
  rw [xorCombine_ok (by simp at h2 ⊢; omega)]
  rfl

/-- What `ROUND` writes, whenever it completes (40_feistel_round_engine R86). -/
theorem roundStep_frame {p : Params} {s t : State rW lW} (h : roundStep p s = .ok t) :
    ∃ newR, t = { s with l := s.r, r := newR, ridx := s.ridx + 1 } := by
  simp only [roundStep, bind, Except.bind] at h
  repeat' split at h
  all_goals first | cases h; exact ⟨_, rfl⟩ | cases h

theorem finishStep_ok {s : State rW lW} (h2 : s.halfLen ≤ Config.digestLen) (h3 : s.l.length = s.halfLen)
    (h4 : s.r.length = s.halfLen) (hw : s.obuf.wf) :
    ∃ m : Memory,
      finishStep s = .ok ({ s with olen := BitVec.ofNat lW (2 * s.halfLen), obuf := m }.setPhase .done) ∧ m.wf ∧
      (∀ j, m.read j = if j < Config.obufCap then (s.r ++ s.l)[j]?.getD 0x00#8 else s.obuf.read j) ∧
      (s.obuf.within Config.obufCap → m.within Config.obufCap) := by
  simp at h2
  simp only [finishStep, Config.obufCap_eq]
  rw [memWrite_ok h4 (by omega)]
  simp only [bind, Except.bind]
  rw [memWrite_ok h3 (by omega)]
  simp only []
  rw [memWrite_ok (by simp) (by omega)]
  have w1 := Memory.writeBytes_wf 0 s.r hw
  have w2 := Memory.writeBytes_wf s.halfLen s.l w1
  refine ⟨_, rfl, Memory.writeBytes_wf _ _ w2, fun j => ?_, fun h => ?_⟩
  · rw [Memory.read_writeBytes _ _ _ w2, Memory.read_writeBytes _ _ _ w1, Memory.read_writeBytes _ _ _ hw]
    by_cases c1 : 2 * s.halfLen ≤ j
    · have : s.halfLen ≤ j := by omega
      by_cases c2 : j < 64
      · have : j - 2 * s.halfLen < 64 - 2 * s.halfLen := by omega
        rw [List.getElem?_eq_none (l := s.r ++ s.l) (by simp; omega)]
        simp [c1, c2, this]
      · have n3 : ¬ j - 2 * s.halfLen < 64 - 2 * s.halfLen := by omega
        rw [List.getElem?_eq_none (l := s.r) (by omega), List.getElem?_eq_none (l := s.l) (by omega)]
        simp [c1, c2, n3]
    · have c2 : j < 64 := by omega
      by_cases c3 : s.halfLen ≤ j
      · have : j - s.halfLen < s.l.length := by omega
        simp [c1, c2, c3, List.getElem?_append, h4, this, Nat.not_lt.2 c3]
      · have : j < s.halfLen := by omega
        simp [c1, c2, c3, List.getElem?_append, h4, this]
  · refine Memory.writeBytes_within _ (Memory.writeBytes_within _ (Memory.writeBytes_within _ h ?_) ?_) ?_
    · omega
    · omega
    · simp; omega

/-- What `FINISH` writes, whenever it completes (40_feistel_round_engine R91). -/
theorem finishStep_frame {s t : State rW lW} (h : finishStep s = .ok t) :
    ∃ m, t = { s with olen := BitVec.ofNat lW (2 * s.halfLen), obuf := m }.setPhase .done := by
  simp only [finishStep, bind, Except.bind] at h
  repeat' split at h
  all_goals first | cases h; exact ⟨_, rfl⟩ | cases h

/-- What `CLR` leaves (43_control R130). -/
theorem clearCommand_eq (s : State rW lW) : clearCommand s = .ok
    ({ s with half := 0, ridx := 0, olen := 0, obuf := s.obuf.writeBytes 0 (zeros 64), l := [], r := [] }.accept .idle) := by
  simp only [clearCommand]
  rw [memWrite_ok (by simp) (by simp)]
  rfl

/-- `OBUF` after `CLR`: zeros, in canonical form (43_control R130). -/
theorem clearCommand_ok {s : State rW lW} (hw : s.obuf.wf) :
    ∃ m : Memory, clearCommand s = .ok
        ({ s with half := 0, ridx := 0, olen := 0, obuf := m, l := [], r := [] }.accept .idle) ∧ m.wf ∧
      (∀ j, m.read j = if j < Config.obufCap then 0x00#8 else s.obuf.read j) ∧
      (s.obuf.within Config.obufCap → m.within Config.obufCap) := by
  refine ⟨_, clearCommand_eq s, Memory.writeBytes_wf _ _ hw, fun j => ?_, fun h => ?_⟩
  · rw [Memory.read_writeBytes _ _ _ hw, if_pos (Nat.zero_le j), Nat.sub_zero, zeros, List.getElem?_replicate]
    simp only [Config.obufCap_eq]
    split <;> rfl
  · exact Memory.writeBytes_within _ h (by simp)

theorem writeLines_eq (b : Buf) (i : Nat) (bs : Bytes) :
    writeLines b i bs = bs.mapIdx (fun j v => Line.instr (.wrb b (i + j) v)) := by
  induction bs generalizing i with
  | nil => rfl
  | cons v bs ih => simp [writeLines, ih, List.mapIdx_cons, Nat.add_assoc, Nat.add_comm 1]

theorem readLines_eq (b : Buf) (i n : Nat) :
    readLines b i n = (List.range n).map (fun j => Line.instr (.rdb b (i + j))) := by
  induction n generalizing i with
  | zero => rfl
  | succ n ih => simp [readLines, ih, List.range_succ_eq_map, Nat.add_assoc, Nat.add_comm 1]

theorem copyLines_eq (i n : Nat) : copyLines i n =
    (List.range n).flatMap (fun j => [Line.instr (.rdb .obuf (i + j)), Line.wrbLast (i + j)]) := by
  induction n generalizing i with
  | zero => rfl
  | succ n ih => simp [copyLines, ih, List.range_succ_eq_map, Nat.add_assoc, Nat.add_comm 1, List.flatMap_map]

end Sys2Proof.Machine
end

