-- ==== Sys2Proof/Laws/Decode.lean ====
section
/-! SUPPORT. What the map answers for each object of a chip with legal parameters, and the inversion of that answer
(20_memory R46). -/
namespace Sys2Proof
variable {p : Params}

theorem overlaps_iff {a n b k : Nat} : overlaps a n b k = true ↔ b < a + n ∧ a < b + k := by
  simp [overlaps]

theorem overlaps_eq_false {a n b k : Nat} : overlaps a n b k = false ↔ a + n ≤ b ∨ b + k ≤ a := by
  rw [← Bool.not_eq_true, overlaps_iff]; omega

/-- The relation of a map's spans (92_eei_decisions: "registers and buffers do not overlap") is symmetric. -/
theorem disjoint_symm {α : Type} (f : α → Nat × Nat) :
    Std.Symm fun x y => overlaps (f x).1 (f x).2 (f y).1 (f y).2 = false :=
  ⟨fun _ _ h => by rw [overlaps_eq_false] at h ⊢; exact h.symm⟩

theorem mem_regs (g : Reg) : g ∈ Reg.all := by cases g <;> decide
theorem mem_bufs (b : Buf) : b ∈ Buf.all := by cases b <;> decide

/-- A register takes at least one byte of the map. -/
theorem Params.bytesOf_width_pos (hp : p.wellFormed) (g : Reg) : 0 < bytesOf (g.width p) := by
  have h1 := hp.1
  have h2 := hp.2.1
  cases g <;> simp only [bytesOf, Reg.width] <;> omega

/-- No two registers overlap. -/
theorem Params.regs_disjoint (hp : p.wellFormed) {g h : Reg} (hne : g ≠ h) :
    overlaps (p.regmap.regBase g) (bytesOf (g.width p)) (p.regmap.regBase h) (bytesOf (h.width p)) = false :=
  have := disjoint_symm fun r => (p.regmap.regBase r, bytesOf (r.width p))
  (List.pairwise_map.1 (List.pairwise_append.1 hp.2.2.2.2).1).forall (mem_regs g) (mem_regs h) hne

/-- No two buffers overlap. -/
theorem Params.bufs_disjoint (hp : p.wellFormed) {b c : Buf} (hne : b ≠ c) :
    overlaps (p.regmap.bufBase b) (p.cap b) (p.regmap.bufBase c) (p.cap c) = false :=
  have := disjoint_symm fun b => (p.regmap.bufBase b, p.cap b)
  (List.pairwise_map.1 (List.pairwise_append.1 hp.2.2.2.2).2.1).forall (mem_bufs b) (mem_bufs c) hne

/-- No register overlaps a buffer. -/
theorem Params.reg_buf_disjoint (hp : p.wellFormed) (g : Reg) (b : Buf) :
    overlaps (p.regmap.regBase g) (bytesOf (g.width p)) (p.regmap.bufBase b) (p.cap b) = false :=
  (List.pairwise_append.1 hp.2.2.2.2).2.2 _ (List.mem_map_of_mem (mem_regs g)) _ (List.mem_map_of_mem (mem_bufs b))

/-- The registers have distinct offsets. -/
theorem Params.regBase_inj (hp : p.wellFormed) {g h : Reg} (he : p.regmap.regBase g = p.regmap.regBase h) : g = h := by
  by_contra hne
  have := overlaps_eq_false.1 (p.regs_disjoint hp hne)
  have := p.bytesOf_width_pos hp g
  have := p.bytesOf_width_pos hp h
  omega

/-- No register's offset is a buffer's byte. -/
theorem Params.regBase_ne_byte (hp : p.wellFormed) (g : Reg) {b : Buf} {k : Nat} (hk : k < p.cap b) :
    p.regmap.regBase g ≠ p.regmap.bufBase b + k := by
  have := overlaps_eq_false.1 (p.reg_buf_disjoint hp g b)
  have := p.bytesOf_width_pos hp g
  omega

/-- A byte lies in one buffer only. -/
theorem Params.buf_unique (hp : p.wellFormed) {b c : Buf} {a : Nat}
    (hb : p.regmap.bufBase b ≤ a ∧ a < p.regmap.bufBase b + p.cap b)
    (hc : p.regmap.bufBase c ≤ a ∧ a < p.regmap.bufBase c + p.cap c) : b = c := by
  by_contra hne
  have := overlaps_eq_false.1 (p.bufs_disjoint hp hne)
  omega

/-- A reserved access meets no register and no buffer, and has a width that the bus carries. -/
theorem Params.isReserved_iff {offset width : Nat} : p.isReserved offset width = true ↔
    (1 ≤ width ∧ width ≤ p.busW) ∧
      (∀ g : Reg, overlaps (p.regmap.regBase g) (bytesOf (g.width p)) offset (bytesOf width) = false) ∧
      ∀ b : Buf, overlaps (p.regmap.bufBase b) (p.cap b) offset (bytesOf width) = false := by
  simp only [Params.isReserved, Params.touches, Bool.and_eq_true, decide_eq_true_eq, Bool.not_eq_true',
    Bool.or_eq_false_iff, List.any_eq_false, Bool.not_eq_true]
  exact and_congr_right fun _ =>
    ⟨fun h => ⟨fun g => h.1 g (mem_regs g), fun b => h.2 b (mem_bufs b)⟩, fun h => ⟨fun g _ => h.1 g, fun b _ => h.2 b⟩⟩

/-- The reserved accesses of the default map, in numbers (20_memory R46, R47). -/
theorem chip_isReserved_iff {offset width : Nat} : chip.isReserved offset width = true ↔
    (1 ≤ width ∧ width ≤ 32) ∧
      ((offset = 0x003 ∧ width ≤ 8) ∨ (0x012 ≤ offset ∧ offset + (width + 7) / 8 ≤ 0x040) ∨ 0x100 ≤ offset) := by
  simp only [Params.isReserved, Bool.and_eq_true, decide_eq_true_eq]
  simp only [chip_busW]
  simp only [Params.touches, Reg.all, Buf.all, List.any_cons, List.any_nil, Bool.or_false,
    Bool.not_eq_true', Bool.or_eq_false_iff, overlaps_eq_false,
    RegMap.regBase, RegMap.bufBase, chip, defaultRegMap, Params.cap, bytesOf, Reg.width, Config.roundsW_eq,
    Config.lenW_eq, Config.ibufCap_eq]
  omega

/-- An access at a register's offset. -/
theorem Params.target_reg (hp : p.wellFormed) (g : Reg) (w : Nat) :
    p.target (p.regmap.regBase g) w = if w = g.width p then .ok (.reg (.reg g)) else .error .accessWidth := by
  have h : Reg.all.find? (fun r => p.regmap.regBase r == p.regmap.regBase g) = some g := by
    cases hf : Reg.all.find? (fun r => p.regmap.regBase r == p.regmap.regBase g) with
    | none => simpa using List.find?_eq_none.1 hf g (mem_regs g)
    | some r =>
      have := List.find?_some hf
      rw [p.regBase_inj hp (beq_iff_eq.1 this)]
  simp only [Params.target, h]

/-- An access at the offset of a buffer's byte. -/
theorem Params.target_byte (hp : p.wellFormed) (b : Buf) (i w : Nat) (hi : i < p.cap b) :
    p.target (p.regmap.bufBase b + i) w = if w = 8 then .ok (.byte b i) else .error .accessWidth := by
  have h1 : Reg.all.find? (fun r => p.regmap.regBase r == p.regmap.bufBase b + i) = none := by
    simp [List.find?_eq_none, p.regBase_ne_byte hp _ hi]
  have h2 : Buf.all.find? (fun c => decide (p.regmap.bufBase c ≤ p.regmap.bufBase b + i) &&
      decide (p.regmap.bufBase b + i < p.regmap.bufBase c + p.cap c)) = some b := by
    cases hf : Buf.all.find? (fun c => decide (p.regmap.bufBase c ≤ p.regmap.bufBase b + i) &&
      decide (p.regmap.bufBase b + i < p.regmap.bufBase c + p.cap c)) with
    | none => simpa [hi] using List.find?_eq_none.1 hf b (mem_bufs b)
    | some c =>
      have := List.find?_some hf
      simp only [Bool.and_eq_true, decide_eq_true_eq] at this
      rw [p.buf_unique hp this ⟨Nat.le_add_right _ _, by omega⟩]
  simp only [Params.target, h1, h2, Nat.add_sub_cancel_left]

/-- An access on no register's offset and in no buffer is the reserved one, or refused. -/
theorem Params.target_other {offset w : Nat} (h1 : ∀ g : Reg, p.regmap.regBase g ≠ offset)
    (h2 : ∀ b : Buf, ¬(p.regmap.bufBase b ≤ offset ∧ offset < p.regmap.bufBase b + p.cap b)) :
    p.target offset w = if p.isReserved offset w then .ok (.reg (.reserved offset w)) else .error .accessWidth := by
  have h1 : Reg.all.find? (fun r => p.regmap.regBase r == offset) = none := by simp [List.find?_eq_none, h1]
  have h2 : Buf.all.find? (fun c => decide (p.regmap.bufBase c ≤ offset) &&
      decide (offset < p.regmap.bufBase c + p.cap c)) = none := by
    simp only [List.find?_eq_none, Bool.and_eq_true, decide_eq_true_eq]
    exact fun b _ => h2 b
  simp only [Params.target, h1, h2]

/-- A reserved access. -/
theorem Params.target_reserved (hp : p.wellFormed) {offset w : Nat} (h : p.isReserved offset w = true) :
    p.target offset w = .ok (.reg (.reserved offset w)) := by
  obtain ⟨⟨hw, -⟩, hg, hb⟩ := p.isReserved_iff.1 h
  have hpos : 0 < bytesOf w := by simp only [bytesOf]; omega
  rw [p.target_other, if_pos h]
  · intro g he
    have := overlaps_eq_false.1 (hg g)
    have := p.bytesOf_width_pos hp g
    omega
  · intro b hx
    have := overlaps_eq_false.1 (hb b)
    omega

/-- What an access that the map answers addresses: a whole register, a buffer byte, or a reserved place. -/
theorem Params.target_cases {offset w : Nat} {t : BusTarget} (h : p.target offset w = .ok t) :
    (∃ g : Reg, t = .reg (.reg g) ∧ offset = p.regmap.regBase g ∧ w = g.width p) ∨
      (∃ b i, t = .byte b i ∧ offset = p.regmap.bufBase b + i ∧ i < p.cap b ∧ w = 8) ∨
      (t = .reg (.reserved offset w) ∧ p.isReserved offset w = true) := by
  simp only [Params.target] at h
  split at h
  · rename_i g hg
    have := List.find?_some hg
    simp only [beq_iff_eq] at this
    split at h
    · cases h; exact .inl ⟨g, rfl, this.symm, ‹_›⟩
    · cases h
  · split at h
    · rename_i b hb
      have := List.find?_some hb
      simp only [Bool.and_eq_true, decide_eq_true_eq] at this
      split at h
      · cases h; exact .inr (.inl ⟨b, _, rfl, by omega, by omega, ‹_›⟩)
      · cases h
    · split at h
      · cases h; exact .inr (.inr ⟨rfl, ‹_›⟩)
      · cases h

/-- A refusal by the map is that of the access width. -/
theorem Params.target_error {offset w : Nat} {e : BusError} (h : p.target offset w = .error e) : e = .accessWidth := by
  cases e; rfl

/-- The offset of `CMD` is the first one that the decoder looks for, on any map. -/
theorem Params.target_cmd : p.target p.regmap.cmd 8 = .ok (.reg (.reg .cmd)) := by
  simp [Params.target, Reg.all, RegMap.regBase, Reg.width]

/-- A value written to `CMD` decodes by its own bits (30_encoding R68, R69). -/
theorem decodeBus_cmdWrite (v : Byte) : decodeBus p (cmdWrite p v) = .ok (decodeCmd v) := by
  simp [decodeBus, cmdWrite, Params.target_cmd]

/-- A row that is a `CMD` value encodes as its write to `CMD` (30_encoding R66). -/
theorem encode_of_encodeCmd {i : Instr} {v : Byte} (h : encodeCmd i = some v) : encode p i = some (cmdWrite p v) := by
  cases i <;> simp only [encodeCmd, Option.some.injEq, reduceCtorEq] at h <;> subst h <;> rfl

/-- The chip's parameters are legal (92_eei_decisions). -/
theorem chip_wellFormed : chip.wellFormed := by decide

end Sys2Proof
end

