-- ==== Sys2Proof/Laws/Exec.lean ====
section
/-! SUPPORT. Everything a step can do, said once: by an instruction of the host, by the engine, by reset. -/
namespace Sys2Proof.Machine
open Sys2Proof.Safety
variable {rW lW : Nat} {p : Params}

/-! ### The machine is the step relation at the defaults (10_state R29) -/

theorem exec_eq_execAt (i : Instr) (s : State) : exec i s = execAt chip i s := by cases i <;> rfl

theorem step_eq_stepAt (s : State) : step s = stepAt chip s := by
  rw [step, show (exec : Instr → State → Result) = execAt chip from funext fun i => funext (exec_eq_execAt i)]
  rfl

/-! ### What each write-locked instruction is, as a write-locked step -/

theorem exec_clr (s : State) : exec .clr s = writeLocked s fun s => settle (clearCommand s) := rfl
theorem exec_xform (s : State) : exec .xform s = writeLocked s fun s => settle (xformAccept chip s) := rfl
theorem exec_encrypt (s : State) : exec .encrypt s = exec .xform s := rfl
theorem exec_decrypt (s : State) : exec .decrypt s = exec .xform s := rfl
theorem exec_digest (s : State) : exec .digest s = writeLocked s fun s => settle (digestCommand chip s) := rfl
theorem exec_xorc (s : State) : exec .xorc s = writeLocked s fun s => settle (xorCommand s) := rfl
theorem exec_wr_cmd (v : Nat) (s : State) : exec (.wr (.reg .cmd) v) s = acceptCommand chip (BitVec.ofNat 8 v) s := rfl

theorem exec_wr_reg {g : Reg} (hg : g ≠ .cmd) (v : Nat) (s : State) :
    exec (.wr (.reg g) v) s = writeLocked s fun s => .next (s.writeReg v g) := by
  cases g <;> first | rfl | exact absurd rfl hg

theorem exec_wrb {b : Buf} {k : Nat} (hk : k < chip.cap b) (v : Byte) (s : State) :
    exec (.wrb b k v) s = writeLocked s fun s => .next (s.writeBuf k v b) := if_pos hk

theorem exec_isReserved {i : Instr} (hi : Safety.isReserved i = true) (s : State) :
    exec i s = writeLocked s fun s => .next (s.raise .cmdIllegal) := by
  cases i <;> first | rfl | cases hi

/-- All that an instruction the host issues can leave, if it answers a next state. -/
inductive HostMove (p : Params) (s : State rW lW) : State rW lW → Prop where
  /-- Nothing of the block changes: a read, an ignored write, an expansion. -/
  | hostSide (h : List Line) (q : List Nat) : HostMove p s { s with host := h, responses := q }
  /-- An error is raised (60_exceptions R149). -/
  | raised (e : ErrCode) (hb : s.busy = false) (he : e ≠ .none) : HostMove p s (s.raise e)
  /-- An `XFORM` is accepted (40_feistel_round_engine R81). -/
  | accepted (h : XformReady p s) : HostMove p s (xformed s)
  /-- `DIGEST` or `XORC` stores its result (R115, R124). -/
  | stored (res : Bytes) (t : State rW lW) (hb : s.busy = false) (h : storeResult res s = .ok t) : HostMove p s (t.accept .done)
  /-- `CLR` (43_control R130). -/
  | cleared (t : State rW lW) (hb : s.busy = false) (h : clearCommand s = .ok t) : HostMove p s t
  /-- An operand register is written, or a read-only one not (43_control R133). -/
  | register (v : Nat) (g : Reg) (hb : s.busy = false) : HostMove p s (s.writeReg v g)
  /-- A buffer byte is written, or `OBUF` not (43_control R134). -/
  | byte (b : Buf) (i : Nat) (v : Byte) (hb : s.busy = false) (hi : i < p.cap b) : HostMove p s (s.writeBuf i v b)

theorem HostMove.refl (s : State rW lW) : HostMove p s s := .hostSide s.host s.responses

theorem hostMove_xform {s t : State rW lW} (hb : s.busy = false) (h : settle (xformAccept p s) = .next t) : HostMove p s t := by
  rw [settle_eq_next] at h
  rcases xformAccept_cases (p := p) hb with ⟨e, he, hx⟩ | ⟨hr, hx⟩ <;> rw [hx] at h <;> cases h
  · exact .raised e hb he
  · exact .accepted hr

theorem hostMove_store {s t : State rW lW} {res : Bytes} (hb : s.busy = false)
    (h : settle (do let u ← storeResult res s; return u.accept .done) = .next t) : HostMove p s t := by
  rw [settle_eq_next] at h
  cases hu : storeResult res s with
  | error e => rw [hu] at h; cases h
  | ok u => rw [hu] at h; cases h; exact .stored res u hb hu

theorem hostMove_digest {s t : State rW lW} (hb : s.busy = false) (h : settle (digestCommand p s) = .next t) :
    HostMove p s t := by
  by_cases h1 : s.blockLen ≤ Config.ibufCap
  · by_cases h2 : s.keyLen ≤ p.kbufCap
    · rw [digestCommand_ok h1 h2] at h
      exact hostMove_store hb h
    · simp only [digestCommand] at h
      rw [if_neg (by omega), if_pos (by omega)] at h
      cases h; exact .raised _ hb (by decide)
  · simp only [digestCommand] at h
    rw [if_pos (by omega)] at h
    cases h; exact .raised _ hb (by decide)

theorem hostMove_xorc {s t : State rW lW} (hb : s.busy = false) (h : settle (xorCommand s) = .next t) : HostMove p s t := by
  by_cases h1 : s.blockLen % 2 = 1
  · simp only [xorCommand] at h
    rw [if_pos h1] at h
    cases h; exact .raised _ hb (by decide)
  · by_cases h2 : s.blockLen ≤ Config.ibufCap
    · rw [xorCommand_ok (by omega) h2] at h
      exact hostMove_store hb h
    · simp only [xorCommand] at h
      rw [if_neg h1, if_pos (by omega)] at h
      cases h; exact .raised _ hb (by decide)

theorem hostMove_clr {s t : State rW lW} (hb : s.busy = false) (h : settle (clearCommand s) = .next t) : HostMove p s t := by
  rw [settle_eq_next] at h
  exact .cleared t hb h

/-- A write-locked move is a move. -/
theorem hostMove_locked {s t : State rW lW} {f : State rW lW → Result rW lW} (h : writeLocked s f = .next t)
    (hf : s.busy = false → f s = .next t → HostMove p s t) : HostMove p s t := by
  rcases writeLocked_next h with ⟨-, rfl⟩ | ⟨hb, h⟩
  · exact .refl _
  · exact hf hb h

theorem hostMove_cmd {s t : State rW lW} {v : Byte} (h : acceptCommand p v s = .next t) : HostMove p s t :=
  hostMove_locked h fun hb h => by
    split at h
    · exact hostMove_clr hb h
    split at h
    · exact hostMove_xform hb h
    split at h
    · exact hostMove_digest hb h
    split at h
    · exact hostMove_xorc hb h
    · cases h; exact .raised _ hb (by decide)

theorem hostMove_reserved {s t : State rW lW} (h : reservedCommand s = .next t) : HostMove p s t :=
  hostMove_locked h fun hb h => by cases h; exact .raised _ hb (by decide)

theorem hostMove_wr {s t : State rW lW} {g : RegTarget} {v : Nat} (h : writeTarget p g v s = .next t) : HostMove p s t := by
  rcases g with g | ⟨o, w⟩
  · have reg : ∀ g, writeLocked s (fun s => Host.Outcome.next (s.writeReg v g)) = .next t → HostMove p s t :=
      fun g h => hostMove_locked h fun hb h => by cases h; exact .register v g hb
    cases g
    · exact hostMove_cmd h
    all_goals exact reg _ h
  · simp only [writeTarget] at h
    split at h
    · cases h; exact .refl _
    · cases h

theorem hostMove_rd {s t : State rW lW} {g : RegTarget} (h : readTarget p g s = .next t) : HostMove p s t := by
  rcases g with g | ⟨o, w⟩
  · cases h; exact .hostSide _ _
  · simp only [readTarget] at h
    split at h
    · cases h; exact .hostSide _ _
    · cases h

theorem hostMove_rdb {s t : State rW lW} {b : Buf} {i : Nat} (h : readByte p b i s = .next t) : HostMove p s t := by
  simp only [readByte] at h
  split at h
  · cases h; exact .hostSide _ _
  · cases h

theorem hostMove_wrb {s t : State rW lW} {b : Buf} {i : Nat} {v : Byte} (h : writeByte p b i v s = .next t) : HostMove p s t := by
  simp only [writeByte] at h
  split at h
  · exact hostMove_locked h fun hb h => by cases h; exact .byte b i v hb ‹_›
  · cases h

/-- Every instruction the host can issue makes a host move, if it answers a next state. -/
theorem execAt_hostMove {i : Instr} {s t : State p.roundsW p.lenW} (hi : i.hostIssued = true)
    (h : execAt p i s = .next t) : HostMove p s t := by
  cases i with
  | clr => exact hostMove_locked (f := fun s => settle (clearCommand s)) h hostMove_clr
  | xform => exact hostMove_locked (f := fun s => settle (xformAccept p s)) h hostMove_xform
  | digest => exact hostMove_locked (f := fun s => settle (digestCommand p s)) h hostMove_digest
  | xorc => exact hostMove_locked (f := fun s => settle (xorCommand s)) h hostMove_xorc
  | reserved04 _ => exact hostMove_reserved h
  | reserved08 _ => exact hostMove_reserved h
  | reserved10 _ => exact hostMove_reserved h
  | reserved20 _ => exact hostMove_reserved h
  | reserved40 _ => exact hostMove_reserved h
  | reserved80 _ => exact hostMove_reserved h
  | rd _ => exact hostMove_rd h
  | wr _ _ => exact hostMove_wr h
  | rdb _ _ => exact hostMove_rdb h
  | wrb _ _ _ => exact hostMove_wrb h
  | round => cases hi
  | finish => cases hi
  | encrypt => exact hostMove_locked (f := fun s => settle (xformAccept p s)) h hostMove_xform
  | decrypt => exact hostMove_locked (f := fun s => settle (xformAccept p s)) h hostMove_xform
  | loadblk bs =>
    simp only [execAt, execLoadblk] at h
    split at h
    · cases h; exact .hostSide _ _
    · cases h
  | loadkey bs =>
    simp only [execAt, loadkeyAt] at h
    split at h
    · cases h; exact .hostSide _ _
    · cases h
  | wait =>
    simp only [execAt, execWait] at h
    split at h <;> cases h
    · exact .hostSide _ _
    · exact .hostSide _ _
  | readout => cases h; exact .hostSide _ _
  | feedback => cases h; exact .hostSide _ _

theorem exec_hostMove {i : Instr} {s t : State} (hi : i.hostIssued = true) (h : exec i s = .next t) :
    HostMove chip s t :=
  execAt_hostMove hi (exec_eq_execAt i s ▸ h)

theorem roundAt_enabled {s : State rW lW} (h : s.engineStep = some .round) : roundAt p s = settle (roundStep p s) :=
  if_pos h
theorem exec_round {s : State} (h : s.engineStep = some .round) : exec .round s = settle (roundStep chip s) := if_pos h
theorem exec_finish {s : State rW lW} (h : s.engineStep = some .finish) : execFinish s = settle (finishStep s) := if_pos h

theorem decodeCmd_hostIssued : ∀ v : Byte, (decodeCmd v).hostIssued = true := by decide

theorem decodeBus_hostIssued {t : BusTxn} {i : Instr} (h : decodeBus p t = .ok i) : i.hostIssued = true := by
  rcases t with ⟨o, w⟩ | ⟨o, w, v⟩ <;> simp only [decodeBus] at h <;> split at h <;> cases h <;>
    first | rfl | exact decodeCmd_hostIssued _

theorem resolveLine_hostIssued {s : State rW lW} {ln : Line} {i : Instr} (h : resolveLine p s ln = .ok i) :
    i.hostIssued = true := by
  cases ln with
  | instr j =>
    simp only [resolveLine] at h
    split at h
    · cases h; assumption
    · cases h
  | bus t =>
    simp only [resolveLine] at h
    split at h
    · cases h; exact decodeBus_hostIssued ‹_›
    · cases h
  | wrbLast j =>
    simp only [resolveLine] at h
    split at h
    · cases h; rfl
    · cases h

/-- A line stands for the same instruction whatever turns are fixed. -/
theorem resolveLine_dropTurn (s : State rW lW) (ln : Line) : resolveLine p s.dropTurn ln = resolveLine p s ln := by
  cases ln <;> rfl

/-- All that a step can do, by whose turn it is. -/
theorem stepAt_cases {s t : State p.roundsW p.lenW} (h : stepAt p s = .next t) :
    (s.turn = .reset ∧ t = s.dropTurn.applyReset) ∨
      (s.turn = .engine ∧ s.engineStep = some .round ∧ roundStep p s.dropTurn = .ok t) ∨
      (s.turn = .engine ∧ s.engineStep = some .finish ∧ finishStep s.dropTurn = .ok t) ∨
      (s.turn = .engine ∧ s.engineStep = none ∧ t = s.dropTurn) ∨
      (s.turn = .host ∧ s.host = [] ∧ t = s.dropTurn) ∨
      (s.turn = .host ∧ ∃ (ln : Line) (rest : List Line) (i : Instr), s.host = ln :: rest ∧
        resolveLine p s ln = .ok i ∧ execAt p i s.dropTurn.dropLine = .next t ∧ HostMove p s.dropTurn.dropLine t) := by
  simp only [stepAt, stepWith] at h
  split at h
  · cases h; exact .inl ⟨‹_›, rfl⟩
  · rename_i ht
    simp only [engineTurn, State.dropTurn_engineStep] at h
    rcases State.engineStep_cases s with he | he | he <;> rw [he] at h
    · exact .inr (.inl ⟨ht, he, settle_eq_next.1 (roundAt_enabled (s := s.dropTurn) (by simpa using he) ▸ h)⟩)
    · exact .inr (.inr (.inl ⟨ht, he, settle_eq_next.1 (exec_finish (s := s.dropTurn) (by simpa using he) ▸ h)⟩))
    · cases h; exact .inr (.inr (.inr (.inl ⟨ht, he, rfl⟩)))
  · rename_i ht
    simp only [hostTurn, State.dropTurn_host] at h
    split at h
    · rename_i hh
      cases h; exact .inr (.inr (.inr (.inr (.inl ⟨ht, hh, rfl⟩))))
    · rename_i ln rest hh
      split at h
      · rename_i i hi
        exact .inr (.inr (.inr (.inr (.inr ⟨ht, ln, rest, i, hh, resolveLine_dropTurn (p := p) s ln ▸ hi, h,
          execAt_hostMove (resolveLine_hostIssued hi) h⟩))))
      · cases h

/-- The same of the chip's step. -/
theorem step_cases {s t : State} (h : step s = .next t) :
    (s.turn = .reset ∧ t = s.dropTurn.applyReset) ∨
      (s.turn = .engine ∧ s.engineStep = some .round ∧ roundStep chip s.dropTurn = .ok t) ∨
      (s.turn = .engine ∧ s.engineStep = some .finish ∧ finishStep s.dropTurn = .ok t) ∨
      (s.turn = .engine ∧ s.engineStep = none ∧ t = s.dropTurn) ∨
      (s.turn = .host ∧ s.host = [] ∧ t = s.dropTurn) ∨
      (s.turn = .host ∧ ∃ (ln : Line) (rest : List Line) (i : Instr), s.host = ln :: rest ∧
        resolveLine chip s ln = .ok i ∧ exec i s.dropTurn.dropLine = .next t ∧ HostMove chip s.dropTurn.dropLine t) := by
  simp only [exec_eq_execAt]
  exact stepAt_cases (step_eq_stepAt s ▸ h)

end Sys2Proof.Machine
end

