-- ==== Sys2Proof/Laws/PerInstr.lean ====
section
/-! SUPPORT. For each instruction: its transaction, if it has one, is the host's and fits the bus (30_encoding R66, R67,
R69; log 11). -/
namespace Sys2Proof.Laws.Encodable

/-- The transaction of a well-formed instruction comes from the host and is of 1 to 32 bits. -/
def Statement (i : Instr) : Prop :=
  i.wellFormed chip = true → ∀ t, encode chip i = some t → i.hostIssued = true ∧ 1 ≤ t.width ∧ t.width ≤ chip.busW

theorem byte_width : 1 ≤ 8 ∧ 8 ≤ chip.busW := by decide

/-- A write to `CMD` is of 8 bits. -/
theorem cmdWrite_width {i : Instr} {t : BusTxn} {v : Byte} (h : some (cmdWrite chip v) = some t)
    (hi : i.hostIssued = true) : i.hostIssued = true ∧ 1 ≤ t.width ∧ t.width ≤ chip.busW := by
  cases h
  exact ⟨hi, byte_width⟩

/-- A register, and a reserved place of a well-formed operand, is of 1 to 32 bits. -/
theorem target_width {g : RegTarget} (h : g.wellFormed chip = true) : 1 ≤ g.width chip ∧ g.width chip ≤ chip.busW := by
  rcases g with g | ⟨o, w⟩
  · cases g <;> decide
  · exact (chip_isReserved_iff.1 h).1

theorem clr : Statement .clr := fun _ _ h => cmdWrite_width h rfl
theorem xform : Statement .xform := fun _ _ h => cmdWrite_width h rfl
theorem digest : Statement .digest := fun _ _ h => cmdWrite_width h rfl
theorem xorc : Statement .xorc := fun _ _ h => cmdWrite_width h rfl
theorem reserved04 (low : BitVec 2) : Statement (.reserved04 low) := fun _ _ h => cmdWrite_width h rfl
theorem reserved08 (low : BitVec 3) : Statement (.reserved08 low) := fun _ _ h => cmdWrite_width h rfl
theorem reserved10 (low : BitVec 4) : Statement (.reserved10 low) := fun _ _ h => cmdWrite_width h rfl
theorem reserved20 (low : BitVec 5) : Statement (.reserved20 low) := fun _ _ h => cmdWrite_width h rfl
theorem reserved40 (low : BitVec 6) : Statement (.reserved40 low) := fun _ _ h => cmdWrite_width h rfl
theorem reserved80 (low : BitVec 7) : Statement (.reserved80 low) := fun _ _ h => cmdWrite_width h rfl

theorem rd (target : RegTarget) : Statement (.rd target) := fun hw _ h => by
  cases h
  exact ⟨rfl, target_width hw⟩

theorem wr (target : RegTarget) (value : Nat) : Statement (.wr target value) := fun hw _ h => by
  cases h
  exact ⟨rfl, target_width hw⟩

theorem rdb (buf : Buf) (index : Nat) : Statement (.rdb buf index) := fun _ _ h => by
  cases h
  exact ⟨rfl, byte_width⟩

theorem wrb (buf : Buf) (index : Nat) (value : Byte) : Statement (.wrb buf index value) := fun _ _ h => by
  cases h
  exact ⟨rfl, byte_width⟩

theorem round : Statement .round := fun _ _ h => by cases h
theorem finish : Statement .finish := fun _ _ h => by cases h
theorem encrypt : Statement .encrypt := fun _ _ h => cmdWrite_width h rfl
theorem decrypt : Statement .decrypt := fun _ _ h => cmdWrite_width h rfl
theorem loadblk (bytes : Bytes) : Statement (.loadblk bytes) := fun _ _ h => by cases h
theorem loadkey (bytes : Bytes) : Statement (.loadkey bytes) := fun _ _ h => by cases h
theorem wait : Statement .wait := fun _ _ h => by cases h
theorem readout : Statement .readout := fun _ _ h => by cases h
theorem feedback : Statement .feedback := fun _ _ h => by cases h

end Sys2Proof.Laws.Encodable
end

