-- ==== Sys2Proof/Laws/Run.lean ====
section
/-! SUPPORT. Runs of several steps, and the step of each agent while no turn is fixed (logs 5 and 6). -/
namespace Sys2Proof.Machine
open Sys2Proof.Safety

theorem run_succ {k : Nat} {s t : State} (h : step s = .next t) :
    Host.Core.run core (k + 1) s = Host.Core.run core k t := by
  have h' : core.step s = .next t := h
  simp only [Host.Core.run, h']

theorem run_one {s t : State} (h : step s = .next t) : Host.Core.run core 1 s = .next t := run_succ h

theorem run_add {j k : Nat} {s t : State} (h : Host.Core.run core j s = .next t) :
    Host.Core.run core (j + k) s = Host.Core.run core k t := by
  induction j generalizing s with
  | zero => cases h; rw [Nat.zero_add]
  | succ j ih =>
    rw [Nat.add_right_comm]
    simp only [Host.Core.run] at h ⊢
    cases hs : core.step s with
    | next u => rw [hs] at h; exact ih h
    | fault f => rw [hs] at h; cases h
    | refused r => rw [hs] at h; cases h

theorem State.dropTurn_eq {s : State} (hs : s.sched = []) : s.dropTurn = s := by
  cases s; cases hs; rfl

theorem State.turn_host {s : State} (hb : s.busy = false) (hs : s.sched = []) : s.turn = .host := by
  simp [State.turn, hs, State.engineStep, hb]

theorem State.turn_engine {s : State} {i : Instr} (hs : s.sched = []) (he : s.engineStep = some i) :
    s.turn = .engine := by
  simp [State.turn, hs, he]

/-- The host's next line, while no operation is in progress. -/
theorem step_line {s : State} {ln : Line} {rest : List Line} {i : Instr} (hb : s.busy = false) (hs : s.sched = [])
    (hh : s.host = ln :: rest) (hi : resolveLine chip s ln = .ok i) : step s = exec i { s with host := rest } := by
  simp only [step, stepWith, State.turn_host hb hs, State.dropTurn_eq hs, hostTurn, hh, hi, State.dropLine, List.tail_cons]

/-- The engine's `ROUND`, where it is enabled. -/
theorem step_round {s : State} (hs : s.sched = []) (he : s.engineStep = some .round) :
    step s = settle (roundStep chip s) := by
  simp only [step, stepWith, State.turn_engine hs he, State.dropTurn_eq hs, engineTurn, he, exec_round he]

/-- The engine's `FINISH`, where it is enabled. -/
theorem step_finish {s : State} (hs : s.sched = []) (he : s.engineStep = some .finish) :
    step s = settle (finishStep s) := by
  simp only [step, stepWith, State.turn_engine hs he, State.dropTurn_eq hs, engineTurn, he]
  exact exec_finish he

@[simp] theorem xformed_busy (s : State) : (xformed s).busy = true := by simp [xformed]

theorem xformed_halfLen {s : State} (h : s.blockLen / 2 ≤ Config.digestLen) : (xformed s).halfLen = s.blockLen / 2 := by
  simp at h
  simp [xformed, State.halfLen]
  omega

/-- An accepted `XFORM` (40_feistel_round_engine R81). -/
theorem execXform_ready {s : State} (h : XformReady chip s) : execXform s = .next (xformed s) := by
  rw [execXform, xformAt, writeLocked_free h.1, xformAccept_ok h]
  rfl

/-- A round keeps the length of the halves (40_feistel_round_engine R80). -/
theorem feistelRound_length {hash : Bytes → Vector Byte Config.digestLen} {key : Bytes} {h : Nat} {x : Bytes × Bytes}
    (h1 : x.1.length = h) (h2 : x.2.length = h) (hh : h ≤ Config.digestLen) :
    (feistelRound hash key h x).1.length = h ∧ (feistelRound hash key h x).2.length = h := by
  simp [feistelRound, h1, h2] at hh ⊢
  omega

theorem feistelHalves_length {hash : Bytes → Vector Byte Config.digestLen} {key : Bytes} {h : Nat} {x : Bytes × Bytes}
    (h1 : x.1.length = h) (h2 : x.2.length = h) (hh : h ≤ Config.digestLen) (n : Nat) :
    (feistelHalves hash key h x n).1.length = h ∧ (feistelHalves hash key h x n).2.length = h := by
  induction n with
  | zero => exact ⟨h1, h2⟩
  | succ n ih => exact feistelRound_length ih.1 ih.2 hh

end Sys2Proof.Machine
end

