-- ==== Sys2Proof/Tests/Slice0.lean ====
section
/-! SUPPORT. Tests: words and vectors of spec/ (each named in its comment), ill-formed terms that are refused, and for
each statement with hypotheses a state and operands that meet them. -/
namespace Sys2Proof.Tests
open Sys2Proof.Machine Sys2Proof.Safety

/-! ### Helpers -/

/-- `HASH_TOY` of 95_test_vectors section 2, a legal `HASH` small enough to evaluate. -/
def toyHash (m : Bytes) : Vector Byte Config.digestLen :=
  let sum := (m.zipIdx 1).foldl (fun acc x => acc + x.2 * x.1.toNat) 0
  Vector.ofFn fun j => BitVec.ofNat 8 (sum + m.length + 7 * j.val)

/-- The chip of 95_test_vectors: the default map, `KBUF_CAP` = 64, `HASH_TOY`. -/
def toyChip : Params := { chip with hash := toyHash }

/-- `n` bytes `f 0`, `f 1`, ... from offset 0 on, as a buffer's contents (`f` never 0). -/
def cells (f : Nat → Byte) (n : Nat) : Memory := (List.range n).map fun j => (j, f j)

/-- The operands of vector T1: block `01 02 03 04`, key `AA BB`, one round. -/
def loaded : State :=
  { State.reset with
    ilen := 4, klen := 2, rounds := 1
    ibuf := [(0, 0x01#8), (1, 0x02#8), (2, 0x03#8), (3, 0x04#8)]
    kbuf := [(0, 0xAA#8), (1, 0xBB#8)] }

/-- `loaded` after an accepted `XFORM` (P1 line 10). -/
def running : State :=
  { loaded with l := [0x01#8, 0x02#8], r := [0x03#8, 0x04#8], half := 2, status := 0x01#8 }

/-- `running` after its round (P1, "engine: ROUND"). -/
def rounded : State :=
  { running with l := [0x03#8, 0x04#8], r := [0xF8#8, 0x02#8], ridx := 1 }

/-- A state with a result (K1's start). -/
def finished : State :=
  { loaded with status := 0x02#8, olen := 4, half := 2, l := [0x00#8, 0x01#8], r := [0x02#8, 0x03#8],
                obuf := [(0, 0x02#8), (1, 0x03#8), (3, 0x01#8)] }

/-- The longest operands. -/
def full : State :=
  { State.reset with
    ilen := 64, klen := 64, rounds := 1
    ibuf := cells (fun j => BitVec.ofNat 8 (j + 1)) 64
    kbuf := cells (fun j => BitVec.ofNat 8 (j + 1)) 64 }

/-- Other parameters that 92_eei_decisions allows: wider and narrower registers, a smaller key buffer, another map. -/
def otherChip : Params where
  roundsW := 64
  lenW := 8
  hash := toyHash
  kbufCap := 16
  regmap := { defaultRegMap with rounds := 0x010, ridx := 0x018, ilen := 0x008, klen := 0x009, olen := 0x00A, kbuf := 0x020 }

/-- `rounded`, on that chip. -/
def otherRounded : State 64 8 :=
  { State.resetOf 64 8 with
    ilen := 4, klen := 2, rounds := 1, ridx := 1, half := 2, status := 0x01#8
    l := [0x03#8, 0x04#8], r := [0xF8#8, 0x02#8]
    ibuf := [(0, 0x01#8), (1, 0x02#8), (2, 0x03#8), (3, 0x04#8)]
    kbuf := [(0, 0xAA#8), (1, 0xBB#8)] }

/-- The state of a computation that completes. -/
def done (x : Except Stop State) : Option State := x.toOption

/-- The state of a step that answers one. -/
def nextOf {rW lW : Nat} : Result rW lW → Option (State rW lW)
  | .next s => some s
  | .fault _ => none
  | .refused _ => none

/-- The refusal of a step that is refused. -/
def refusalOf : Result → Option Refusal
  | .refused r => some r
  | .next _ => none
  | .fault _ => none

/-! ### Ill-formed terms are refused -/

theorem test_wellFormed_rd : (Instr.rd (.reserved 0x004 8)).wellFormed chip = false := by decide
theorem test_wellFormed_wr : (Instr.wr (.reserved 0x012 33) 0).wellFormed chip = false := by decide
theorem test_wellFormed_rdb : (Instr.rdb .obuf 64).wellFormed chip = false := by decide
theorem test_wellFormed_wrb : (Instr.wrb .kbuf 64 0x00#8).wellFormed chip = false := by decide
theorem test_wellFormed_loadblk : (Instr.loadblk (zeros 65)).wellFormed chip = false := by decide
theorem test_wellFormed_loadkey : (Instr.loadkey (zeros 65)).wellFormed chip = false := by decide
/-- Each constraint of 92_eei_decisions, "Parameters left OPEN", broken alone; and two legal chips. -/
theorem test_wellFormed_params :
    ¬{ chip with roundsW := 0 }.wellFormed ∧ ¬{ chip with lenW := 7 }.wellFormed ∧ ¬{ chip with kbufCap := 0 }.wellFormed ∧
    ¬{ chip with lenW := 8, kbufCap := 256 }.wellFormed ∧
    ¬{ chip with regmap := { defaultRegMap with klen := 0x00D } }.wellFormed ∧
    chip.wellFormed ∧ otherChip.wellFormed := by decide
theorem test_wellFormed_bounds : (Instr.rdb .obuf 63).wellFormed chip ∧ (Instr.wrb .kbuf 63 0xFF#8).wellFormed chip ∧
    (Instr.loadblk (zeros 64)).wellFormed chip ∧ (Instr.rd (.reserved 0x03C 32)).wellFormed chip := by decide

/-! ### Decoding: one word for each row that has one (30_encoding R62, R66, R69; 20_memory R46) -/

theorem test_decode_clr : decodeTableWord 8 0b00000000 = some .clr := by decide
theorem test_decode_xform : decodeTableWord 8 0b00000001 = some .xform := by decide
theorem test_decode_digest : decodeTableWord 8 0b00000010 = some .digest := by decide
theorem test_decode_xorc : decodeTableWord 8 0b00000011 = some .xorc := by decide
theorem test_decode_reserved04 : decodeTableWord 8 0b00000110 = some (.reserved04 0b10#2) := by decide
theorem test_decode_reserved08 : decodeTableWord 8 0b00001011 = some (.reserved08 0b011#3) := by decide
theorem test_decode_reserved10 : decodeTableWord 8 0b00011001 = some (.reserved10 0b1001#4) := by decide
theorem test_decode_reserved20 : decodeTableWord 8 0b00110101 = some (.reserved20 0b10101#5) := by decide
theorem test_decode_reserved40 : decodeTableWord 8 0b01111110 = some (.reserved40 0b111110#6) := by decide
theorem test_decode_reserved80 : decodeTableWord 8 0b11111111 = some (.reserved80 0b1111111#7) := by decide
theorem test_decode_otherLength : decodeTableWord 16 1 = none := by decide

/-- `RD` of each register, at its own offset and width (R46), and of a reserved offset (R47). -/
theorem test_decode_rd :
    decodeBus chip (.read 0x000 8) = .ok (.rd (.reg .cmd)) ∧ decodeBus chip (.read 0x001 8) = .ok (.rd (.reg .status)) ∧
    decodeBus chip (.read 0x002 8) = .ok (.rd (.reg .half)) ∧ decodeBus chip (.read 0x004 32) = .ok (.rd (.reg .rounds)) ∧
    decodeBus chip (.read 0x008 32) = .ok (.rd (.reg .ridx)) ∧ decodeBus chip (.read 0x00C 16) = .ok (.rd (.reg .ilen)) ∧
    decodeBus chip (.read 0x00E 16) = .ok (.rd (.reg .klen)) ∧ decodeBus chip (.read 0x010 16) = .ok (.rd (.reg .olen)) ∧
    decodeBus chip (.read 0x003 8) = .ok (.rd (.reserved 0x003 8)) := by decide
/-- `WR ROUNDS, 19` (R69), `WR ILEN, 66` (P2 line 8), `WR CMD, 0x55` (P4 line 11), and a reserved offset. -/
theorem test_decode_wr :
    decodeBus chip (.write 0x004 32 0x00000013#32) = .ok (.wr (.reg .rounds) 19) ∧
    decodeBus chip (.write 0x00C 16 0x0042#16) = .ok (.wr (.reg .ilen) 66) ∧
    decodeBus chip (.write 0x000 8 0x55#8) = .ok (.reserved40 0x15#6) ∧
    decodeBus chip (.write 0x100 16 0xBEEF#16) = .ok (.wr (.reserved 0x100 16) 0xBEEF) := by decide
/-- The first and last byte of each buffer (R46). -/
theorem test_decode_rdb :
    decodeBus chip (.read 0x040 8) = .ok (.rdb .ibuf 0) ∧ decodeBus chip (.read 0x07F 8) = .ok (.rdb .ibuf 63) ∧
    decodeBus chip (.read 0x080 8) = .ok (.rdb .obuf 0) ∧ decodeBus chip (.read 0x0BF 8) = .ok (.rdb .obuf 63) ∧
    decodeBus chip (.read 0x0C0 8) = .ok (.rdb .kbuf 0) ∧ decodeBus chip (.read 0x0FF 8) = .ok (.rdb .kbuf 63) := by
  decide
/-- P1 lines 4 and 7. -/
theorem test_decode_wrb :
    decodeBus chip (.write 0x043 8 0x04#8) = .ok (.wrb .ibuf 3 0x04#8) ∧
    decodeBus chip (.write 0x0C1 8 0xBB#8) = .ok (.wrb .kbuf 1 0xBB#8) := by decide
/-- Accesses of another width, or that start inside a register, are refused (R43, U6). -/
theorem test_decode_badWidth :
    decodeBus chip (.read 0x00C 32) = .error .accessWidth ∧ decodeBus chip (.read 0x005 8) = .error .accessWidth ∧
    decodeBus chip (.write 0x040 16 0x0201#16) = .error .accessWidth ∧
    decodeBus chip (.read 0x03F 16) = .error .accessWidth ∧ decodeBus chip (.read 0x012 0) = .error .accessWidth ∧
    decodeBus chip (.read 0x012 33) = .error .accessWidth := by decide
/-- `ENCRYPT` and `DECRYPT` are the write of `0x01` (R67); an engine step and a `WAIT` have no transaction. -/
theorem test_encode_others : encode chip .encrypt = some (.write 0x000 8 0x01#8) ∧
    encode chip .decrypt = some (.write 0x000 8 0x01#8) ∧ encode chip .round = none ∧ encode chip .finish = none ∧
    encode chip .wait = none ∧ encode chip .readout = none ∧ encode chip .feedback = none ∧
    encode chip (.loadblk [0x01#8]) = none ∧ encode chip (.loadkey [0x01#8]) = none := by decide

/-! ### The functions (95_test_vectors sections 2 and 3) -/

/-- H2: message first, key second (DG1). -/
theorem test_digest_H2 : (digest toyHash [0x03#8, 0x04#8] [0xAA#8, 0xBB#8]).take 4 = [0xF9#8, 0x00#8, 0x07#8, 0x0E#8] := by
  decide
/-- H3: the other order gives another digest (DG2). -/
theorem test_digest_H3 : (digest toyHash [0xAA#8, 0xBB#8] [0x03#8, 0x04#8]).take 4 = [0x3D#8, 0x44#8, 0x4B#8, 0x52#8] := by
  decide
/-- T1. -/
theorem test_transform_T1 : transform toyHash [0x01#8, 0x02#8, 0x03#8, 0x04#8] [0xAA#8, 0xBB#8] 1 =
    .ok [0xF8#8, 0x02#8, 0x03#8, 0x04#8] := by decide
/-- T2, three rounds. -/
theorem test_transform_T2 : transform toyHash [0x10#8, 0x20#8, 0x30#8, 0x40#8, 0x50#8, 0x60#8] [0x6B#8, 0x65#8, 0x79#8] 3 =
    .ok [0x22#8, 0x12#8, 0x7E#8, 0xDF#8, 0xF6#8, 0xCD#8] := by decide

/-! ### The instructions, on the vectors of the spec -/

/-- K2: `CLR` after a result. -/
theorem test_clr : (nextOf (exec .clr finished)).map (fun s => (s.status, s.half, s.olen, s.obuf)) =
    some (0x00#8, 0, 0, []) ∧ (nextOf (exec .clr finished)).map (·.ibuf) = some finished.ibuf := by decide
/-- P1 line 10. -/
theorem test_xform_accept : done (xformAccept toyChip loaded) = some running := by decide
/-- E2, E3, E4 and E6. -/
theorem test_xform_errors :
    (done (xformAccept toyChip { loaded with ilen := 66 })).map (·.status) = some 0x0B#8 ∧
    (done (xformAccept toyChip { loaded with ilen := 67 })).map (·.status) = some 0x07#8 ∧
    (done (xformAccept toyChip { loaded with ilen := 1, klen := 65 })).map (·.status) = some 0x07#8 ∧
    (done (xformAccept toyChip { loaded with klen := 65, rounds := 0 })).map (·.status) = some 0x0F#8 := by decide
/-- P3 line 5: the digest of `03 04` and `AA BB`, 32 bytes of it and zeros after them. -/
theorem test_digest :
    ((done (digestCommand toyChip { loaded with ilen := 2, ibuf := [(0, 0x03#8), (1, 0x04#8)] })).map fun s =>
      (s.status, s.olen, s.obuf.readBytes 0 3, s.obuf.readBytes 31 3)) =
      some (0x02#8, 32, [0xF9#8, 0x00#8, 0x07#8], [0xD2#8, 0x00#8, 0x00#8]) := by decide
/-- DG8 and DG9: the result of the last command stays. -/
theorem test_digest_errors :
    (done (digestCommand toyChip { finished with ilen := 65 })).map (fun s => (s.status, s.obuf)) =
      some (0x0F#8, finished.obuf) ∧
    (done (digestCommand toyChip { finished with klen := 65 })).map (fun s => (s.status, s.olen)) =
      some (0x0F#8, 4) := by decide
/-- X1 (`IBUF` = `01 02 F9 00`; the unlisted byte is `00`), over an older result. -/
theorem test_xorc :
    (done (xorCommand { finished with ibuf := [(0, 0x01#8), (1, 0x02#8), (2, 0xF9#8)] })).map (fun s =>
      (s.status, s.olen, s.obuf)) = some (0x02#8, 2, [(0, 0xF8#8), (1, 0x02#8)]) := by decide
/-- X8, X9, X10. -/
theorem test_xorc_errors :
    (done (xorCommand { loaded with ilen := 3 })).map (·.status) = some 0x07#8 ∧
    (done (xorCommand { loaded with ilen := 66 })).map (·.status) = some 0x0F#8 ∧
    (done (xorCommand { loaded with ilen := 65 })).map (·.status) = some 0x07#8 := by decide
/-- K1 (`0x7F`), and the smallest value of each of the other reserved rows (R131). -/
theorem test_reserved :
    nextOf (exec (.reserved40 0x3F#6) finished) = some { finished with status := 0x13#8 } ∧
    (nextOf (exec (.reserved04 0) loaded)).map (·.status) = some 0x13#8 ∧
    (nextOf (exec (.reserved08 0) loaded)).map (·.status) = some 0x13#8 ∧
    (nextOf (exec (.reserved10 0) loaded)).map (·.status) = some 0x13#8 ∧
    (nextOf (exec (.reserved20 0) loaded)).map (·.status) = some 0x13#8 ∧
    (nextOf (exec (.reserved80 0) loaded)).map (·.status) = some 0x13#8 := by decide
/-- K3: writes while `BUSY`. -/
theorem test_busy : nextOf (exec .clr running) = some running ∧ nextOf (exec (.wr (.reg .cmd) 0x55) running) = some running ∧
    nextOf (exec .xform running) = some running ∧ nextOf (exec (.wr (.reg .rounds) 1) running) = some running ∧
    nextOf (exec (.wrb .kbuf 0 0xFF#8) running) = some running := by decide
/-- K4, P2 line 7 and P1 line 12: what `RD` answers. -/
theorem test_rd : (nextOf (exec (.rd (.reg .cmd)) running)).map (·.responses) = some [0] ∧
    (nextOf (exec (.rd (.reg .status)) { loaded with status := 0x07#8 })).map (·.responses) = some [0x07] ∧
    (nextOf (exec (.rd (.reg .olen)) finished)).map (·.responses) = some [4] := by decide
/-- K7, and the truncation of R133. -/
theorem test_wr : nextOf (exec (.wr (.reg .status) 0xFF) finished) = some finished ∧
    (nextOf (exec (.wr (.reg .klen) 0x12345) loaded)).map (·.klen) = some 0x2345 := by decide
/-- P4 line 12, while `BUSY`. -/
theorem test_rdb : (nextOf (exec (.rdb .kbuf 0) { running with kbuf := [(0, 0x6B#8)] })).map (·.responses) = some [0x6B] := by
  decide
/-- P1 line 14, and a write of `00` in canonical form; K7 to `OBUF`. -/
theorem test_wrb : (nextOf (exec (.wrb .ibuf 1 0x00#8) loaded)).map (·.ibuf) = some [(0, 0x01#8), (2, 0x03#8), (3, 0x04#8)] ∧
    (nextOf (exec (.wrb .ibuf 0 0xF8#8) loaded)).map (·.ibuf.readBytes 0 2) = some [0xF8#8, 0x02#8] ∧
    nextOf (exec (.wrb .obuf 0 0xFF#8) loaded) = some loaded := by decide
/-- P1, "engine: ROUND". -/
theorem test_round : done (roundStep toyChip running) = some rounded := by decide
/-- P1, "engine: FINISH". -/
theorem test_finish : (nextOf (exec .finish rounded)).map (fun s => (s.status, s.olen, s.obuf)) =
    some (0x02#8, 4, [(0, 0xF8#8), (1, 0x02#8), (2, 0x03#8), (3, 0x04#8)]) := by decide
/-- R67, R99. -/
theorem test_encrypt : nextOf (exec .encrypt loaded) = some running := by decide
/-- K6: accepted from `ERROR`. -/
theorem test_decrypt : nextOf (exec .decrypt { loaded with status := 0x07#8 }) = some running := by decide
/-- P5 line 2, shortened. -/
theorem test_loadblk : (nextOf (exec (.loadblk [0x48#8, 0x65#8]) State.reset)).map (·.host) =
    some [.instr (.wrb .ibuf 0 0x48#8), .instr (.wrb .ibuf 1 0x65#8), .instr (.wr (.reg .ilen) 2)] := by decide
/-- P5 line 1, shortened. -/
theorem test_loadkey : (nextOf (exec (.loadkey [0x54#8]) State.reset)).map (·.host) =
    some [.instr (.wrb .kbuf 0 0x54#8), .instr (.wr (.reg .klen) 1)] := by decide
/-- P5 line 5: it polls again while `BUSY`, and ends on `0x02`. -/
theorem test_wait : (nextOf (exec .wait running)).map (fun s => (s.host, s.responses)) = some ([.instr .wait], [0x01]) ∧
    (nextOf (exec .wait finished)).map (fun s => (s.host, s.responses)) = some ([], [0x02]) := by decide
/-- P1 lines 12 and 13. -/
theorem test_readout : (nextOf (exec .readout finished)).map (fun s => (s.host, s.responses)) =
    some ([.instr (.rdb .obuf 0), .instr (.rdb .obuf 1), .instr (.rdb .obuf 2), .instr (.rdb .obuf 3)], [4]) := by decide
/-- R67, for a result of one byte; and the write of the byte read. -/
theorem test_feedback : (nextOf (exec .feedback { finished with olen := 1 })).map (·.host) =
    some [.instr (.rdb .obuf 0), .wrbLast 0, .instr (.wr (.reg .ilen) 1)] ∧
    (nextOf (step { finished with host := [.wrbLast 0], responses := [4, 0xF8] })).map (·.ibuf.read 0) = some 0xF8#8 := by
  decide
/-- R170, R171: reset while `BUSY`. -/
theorem test_reset : nextOf (step { running with sched := [.reset] }) = some State.reset := by decide
/-- T6: an `XFORM` straight after reset runs, as the first line, to `DONE` with `OLEN` = 0. -/
theorem test_firstXform : (nextOf (step (State.reset.withFetchWord 8 1))).map (·.status) = some 0x01#8 ∧
    ((nextOf (step (State.reset.withFetchWord 8 1))).bind fun s => nextOf (step s)).map (fun s => (s.status, s.olen)) =
      some (0x02#8, 0) := by decide

/-! ### At other parameters (00_scope R4, 10_state R29) -/

/-- The map's offsets and the registers' widths, in the decoder; a `KBUF` index past the smaller capacity is reserved. -/
theorem test_decode_other :
    decodeBus otherChip (.write 0x010 64 0x100000013#64) = .ok (.wr (.reg .rounds) 0x100000013) ∧
    decodeBus otherChip (.read 0x00A 8) = .ok (.rd (.reg .olen)) ∧
    decodeBus otherChip (.write 0x02F 8 0xBB#8) = .ok (.wrb .kbuf 15 0xBB#8) ∧
    decodeBus otherChip (.read 0x030 8) = .ok (.rd (.reserved 0x030 8)) := by decide
/-- P1, "engine: FINISH", on registers of other widths; the truncation of R133 to 8 bits; R84 at `KBUF_CAP` = 16. -/
theorem test_step_other :
    (nextOf (stepAt otherChip otherRounded)).map (fun s => (s.status, s.olen, s.obuf.readBytes 0 4)) =
      some (0x02#8, 4, [0xF8#8, 0x02#8, 0x03#8, 0x04#8]) ∧
    (nextOf (execAt otherChip (.wr (.reg .klen) 0x111) { otherRounded with status := 0x00#8 })).map (·.klen) = some 0x11 ∧
    (nextOf (execAt otherChip .xform { otherRounded with status := 0x00#8, klen := 17 })).map (·.status) = some 0x0F#8 := by
  decide

/-! ### For each statement with hypotheses, a state and operands that meet them together -/

/-- `running`, sound by R28, is `BUSY`; so is `rounded`, its `FINISH` enabled. -/
theorem witness_inv : Inv chip State.reset ∧ Inv chip loaded ∧ Inv chip running ∧ Inv chip rounded ∧ Inv chip finished :=
  ⟨by decide, by decide, by decide, by decide, by decide⟩

theorem witness_DecodeOfEncodeIsTheInstruction :
    (Instr.wrb .kbuf 63 0xFF#8).wellFormed chip = true ∧ (Instr.wrb .kbuf 63 0xFF#8).canonical chip = true ∧
      encode chip (.wrb .kbuf 63 0xFF#8) = some (.write 0x0FF 8 0xFF#8) ∧ chip.wellFormed := by decide
/-- The reserved place at the edge of the map, and the largest value of a 16-bit register. -/
theorem witness_DecodeOfEncode_edges :
    (Instr.wr (.reserved 0x03C 32) 0xFFFFFFFF).wellFormed chip = true ∧
      (Instr.wr (.reserved 0x03C 32) 0xFFFFFFFF).canonical chip = true ∧
      (encode chip (.wr (.reserved 0x03C 32) 0xFFFFFFFF)).isSome ∧ (Instr.wr (.reg .ilen) 0xFFFF).canonical chip = true ∧
      (encode chip (.wr (.reg .ilen) 0xFFFF)).isSome := by decide
/-- Another chip, the last byte of its key buffer and the widest value of its `ROUNDS`. -/
theorem witness_DecodeOfEncode_other : otherChip.wellFormed ∧
    (Instr.wrb .kbuf 15 0xFF#8).wellFormed otherChip = true ∧ (Instr.wrb .kbuf 15 0xFF#8).canonical otherChip = true ∧
    (encode otherChip (.wrb .kbuf 15 0xFF#8)).isSome ∧
    (Instr.wr (.reg .rounds) 0xFFFFFFFFFFFFFFFF).wellFormed otherChip = true ∧
    (Instr.wr (.reg .rounds) 0xFFFFFFFFFFFFFFFF).canonical otherChip = true ∧
    (encode otherChip (.wr (.reg .rounds) 0xFFFFFFFFFFFFFFFF)).isSome := by decide
theorem witness_EncodeOfDecodeIsTheTransaction : decodeBus chip (.write 0x010 16 0xFFFF#16) = .ok (.wr (.reg .olen) 0xFFFF) := by
  decide
theorem witness_EveryCommandValueHasExactlyOneRow : encodeCmd (.reserved80 0x7F#7) = some 0xFF#8 := by decide
theorem witness_SecondSpellingsDecodeToTheirCommand :
    encode chip (.wr (.reg .cmd) 0x102) = some (.write 0x000 8 0x02#8) ∧
      encode chip .encrypt = some (.write 0x000 8 0x01#8) ∧ encode chip .decrypt = some (.write 0x000 8 0x01#8) := by decide
/-- R133's truncation, of a register's value and of a reserved place's. -/
theorem witness_SecondSpellings_truncated :
    (RegTarget.reg .ilen ≠ .reg .cmd ∧ (RegTarget.reg .ilen).wellFormed chip = true ∧
      encode chip (.wr (.reg .ilen) 0x12345) = some (.write 0x00C 16 0x2345#16)) ∧
    (RegTarget.reserved 0x012 8 ≠ .reg .cmd ∧ (RegTarget.reserved 0x012 8).wellFormed chip = true ∧
      encode chip (.wr (.reserved 0x012 8) 0x1FF) = some (.write 0x012 8 0xFF#8)) := by decide

/-- `finished` with a host's line of one kind. -/
def withLine (ln : Line) : State := { finished with host := [ln] }

theorem witness_OtherAccessWidthsAreRefused : 8 ≠ Reg.rounds.width chip ∧ 63 < chip.cap .kbuf ∧ 16 ≠ 8 ∧
    (withLine (.bus (.read 0x004 8))).turn = .host ∧ (withLine (.bus (.read 0x004 8))).host = .bus (.read 0x004 8) :: [] ∧
    decodeBus chip (.read 0x004 8) = .error .accessWidth := by decide
/-- Offset and width of one access of each kind: reaching from each reserved range onto what follows it, wider than the
widest register, of no bit, and inside a register. -/
theorem witness_OtherAccesses_edges :
    ∀ x ∈ [(0x003, 9), (0x03F, 16), (0x100, 33), (0x012, 0), (0x005, 8)],
      (∀ g ∈ Reg.all, ¬(x.1 = chip.regmap.regBase g ∧ x.2 = g.width chip)) ∧
      (∀ b ∈ Buf.all, ∀ k < chip.cap b, ¬(x.1 = chip.regmap.bufBase b + k ∧ x.2 = 8)) ∧
      ¬((1 ≤ x.2 ∧ x.2 ≤ 32) ∧
        ((x.1 = 0x003 ∧ x.2 ≤ 8) ∨ (0x012 ≤ x.1 ∧ x.1 + (x.2 + 7) / 8 ≤ 0x040) ∨ 0x100 ≤ x.1)) := by decide
theorem witness_StepRunsTheHostsInstruction :
    (withLine (.instr .wait)).turn = .host ∧ (withLine (.instr .wait)).host = .instr .wait :: [] ∧
    resolveLine chip (withLine (.instr .wait)) (.instr .wait) = .ok .wait ∧ Instr.wait.hostIssued = true ∧
    decodeBus chip (.write 0x000 8 0x03#8) = .ok .xorc := by decide
theorem witness_StepRunsTheEnabledEngineStep :
    (running.turn = .engine ∧ running.busy = true ∧ running.ridx < running.rounds) ∧
    (rounded.turn = .engine ∧ rounded.busy = true ∧ rounded.ridx = rounded.rounds) ∧
    ({ finished with sched := [.engine] }.turn = .engine ∧ { finished with sched := [.engine] }.busy = false) := by decide
theorem witness_TurnsAreTakenAsFixed : { running with sched := [.host] }.sched = .host :: [] ∧
    (rounded.sched = [] ∧ rounded.busy = true ∧ rounded.ridx ≤ rounded.rounds) ∧
    (finished.sched = [] ∧ finished.busy = false) := by decide
theorem witness_ResetTurnResetsTheBlock : { running with sched := [.reset] }.turn = .reset := by decide
theorem witness_EveryStepKeepsTheInvariants : Inv chip rounded ∧ ∃ t, step rounded = .next t := ⟨by decide, _, rfl⟩
theorem witness_NoStepFaultsUnderTheInvariants : Inv chip running ∧ running.turn = .engine := by decide
theorem witness_EngineTurnsRaiseNothing : rounded.turn = .engine ∧ ∃ t, step rounded = .next t := ⟨by decide, _, rfl⟩
theorem witness_HostWritesAreIgnoredWhileBusy :
    isHostWrite (.wrb .ibuf 63 0xFF#8) = true ∧ (Instr.wrb .ibuf 63 0xFF#8).wellFormed chip = true ∧ running.busy = true ∧
    isHostWrite (.wr (.reserved 0x100 8) 1) = true ∧ (Instr.wr (.reserved 0x100 8) 1).wellFormed chip = true := by decide
theorem witness_ClrClearsTheEngineState : finished.busy = false ∧ finished.obuf.wf := by decide
theorem witness_ReservedCommandsRaiseCmdIllegal : isReserved (.reserved04 0) = true ∧ isReserved (.reserved80 0x7F#7) = true ∧
    running.busy = true ∧ finished.busy = false ∧ isReserved (decodeCmd 0x03#8) = false ∧
    isReserved (decodeCmd 0x04#8) = true := by decide
/-- The smallest and the largest block, and the longest key. -/
theorem witness_XformAcceptSplitsTheBlock : XformReady chip State.reset ∧ XformReady chip full ∧ XformReady chip finished := by
  decide
theorem witness_XformRaisesTheFirstErrorThatApplies : finished.busy = false ∧
    { finished with ilen := 65535, klen := 65 }.blockLen % 2 = 1 ∧
    ({ finished with ilen := 66 }.blockLen % 2 = 0 ∧ 66 ≤ { finished with ilen := 66 }.blockLen) ∧
    ({ full with klen := 65 }.blockLen % 2 = 0 ∧ { full with klen := 65 }.blockLen ≤ 64 ∧
      chip.kbufCap < { full with klen := 65 }.keyLen) := by decide
theorem witness_DigestStoresTheHashOfMessageThenKey :
    full.busy = false ∧ full.blockLen ≤ 64 ∧ full.keyLen ≤ chip.kbufCap ∧ full.obuf.wf := by decide
theorem witness_XorcStoresTheXorOfTheHalves :
    full.busy = false ∧ full.blockLen % 2 = 0 ∧ full.blockLen ≤ 64 ∧ full.obuf.wf := by decide
theorem witness_DigestAndXorcRaiseTheFirstErrorThatApplies : finished.busy = false ∧
    64 < { finished with ilen := 65 }.blockLen ∧ chip.kbufCap < { finished with klen := 65 }.keyLen ∧
    { finished with ilen := 67 }.blockLen % 2 = 1 ∧
    ({ finished with ilen := 66 }.blockLen % 2 = 0 ∧ 66 ≤ { finished with ilen := 66 }.blockLen) := by decide
theorem witness_WriteStoresTheOperandRegister : running.busy = true ∧ finished.busy = false := by decide
/-- The edges of the three reserved ranges of the default map. -/
theorem witness_ReservedOffsetsReadZeroAndIgnoreWrites :
    ((0x003 = 0x003 ∧ 8 ≤ 8) ∧ (0x012 ≤ 0x03C ∧ 0x03C + (32 + 7) / 8 ≤ 0x040) ∧ 0x100 ≤ 0x100) ∧
      chip.isReserved 0x003 8 ∧ chip.isReserved 0x012 1 ∧ chip.isReserved 0x03C 32 ∧ chip.isReserved 0x100 32 := by decide
theorem witness_ReadByteReturnsTheByte : 63 < chip.cap .ibuf ∧ 63 < chip.cap .kbuf ∧ 63 < chip.cap .obuf := by decide
theorem witness_WriteByteStoresTheByte : full.busy = false ∧ 63 < 64 ∧ full.ibuf.wf ∧ full.kbuf.wf := by decide
theorem witness_IndexBeyondCapacityIsRefused : chip.cap .obuf ≤ 64 := by decide
theorem witness_RoundComputesOneFeistelRound : running.busy = true ∧ running.ridx < running.rounds ∧
    running.keyLen ≤ chip.kbufCap ∧ running.halfLen ≤ 32 ∧ running.l.length = running.halfLen := by decide
theorem witness_FinishStoresRightThenLeft : rounded.busy = true ∧ rounded.ridx = rounded.rounds ∧ rounded.halfLen ≤ 32 ∧
    rounded.l.length = rounded.halfLen ∧ rounded.r.length = rounded.halfLen ∧ rounded.obuf.wf := by decide
theorem witness_EngineStepsNeedTheirCondition :
    ¬(rounded.busy = true ∧ rounded.ridx < rounded.rounds) ∧ ¬(running.busy = true ∧ running.ridx = running.rounds) ∧
    (withLine (.instr .round)).turn = .host ∧ (withLine (.instr .round)).host = .instr .round :: [] := by decide
theorem witness_LoadsExpandToByteWrites : (zeros 64).length ≤ 64 ∧ (zeros 64).length ≤ chip.kbufCap ∧
    64 < (zeros 65).length ∧ chip.kbufCap < (zeros 65).length := by decide
theorem witness_PseudoReadsExpandToTheirTransactions : finished.busy = false ∧ running.busy = true := by decide
theorem witness_LoadblkLoadsTheBlock :
    finished.busy = false ∧ finished.sched = [] ∧ (zeros 64).length ≤ 64 ∧ finished.ibuf.wf := by decide
theorem witness_LoadkeyLoadsTheKey :
    finished.busy = false ∧ finished.sched = [] ∧ (zeros 64).length ≤ chip.kbufCap ∧ finished.kbuf.wf := by decide
theorem witness_ReadoutReturnsTheResult : finished.busy = false ∧ finished.sched = [] ∧ finished.olen.toNat ≤ 64 := by decide
theorem witness_FeedbackMakesTheResultTheInput :
    finished.busy = false ∧ finished.sched = [] ∧ finished.olen.toNat ≤ 64 ∧ finished.ibuf.wf := by decide
theorem witness_XorCombineIsBitwise : [0xA5#8].length = [0x5A#8].length ∧ 0 < [0xA5#8].length ∧ 7 < 8 ∧
    [0xA5#8].length ≠ ([] : Bytes).length := by decide
theorem witness_XorLaws : [0x80#8].length = [0x01#8].length ∧ [0x01#8].length = [0xFF#8].length := by decide
/-- DG3 and DG4. -/
theorem witness_DigestIsTheHashOfTheConcatenation : [0x01#8, 0x02#8] ++ [0x03#8] = [0x01#8] ++ [0x02#8, 0x03#8] := by decide
theorem witness_TransformTwiceIsTheBlock : (zeros 64).length % 2 = 0 ∧ (zeros 64).length ≤ 64 := by decide
/-- T1, and a second block with another result. -/
theorem witness_TransformPreservesTheLength :
    transform toyHash [0x01#8, 0x02#8, 0x03#8, 0x04#8] [0xBB#8, 0xAA#8] 1 = .ok [0xE9#8, 0xED#8, 0x03#8, 0x04#8] := by decide
theorem witness_TransformOfZeroRoundsSwapsTheHalves : (zeros 32).length = (zeros 32).length ∧ (zeros 32).length ≤ 32 := by
  decide
theorem witness_TransformRejectsTheLengths : (zeros 1).length % 2 = 1 ∧ (zeros 66).length % 2 = 0 ∧ 66 ≤ (zeros 66).length := by
  decide
theorem witness_TransformIsInjective : ∃ B C : Bytes, transform toyHash B [0xAA#8, 0xBB#8] 1 = .ok C ∧ B ≠ C :=
  ⟨[0x01#8, 0x02#8, 0x03#8, 0x04#8], [0xF8#8, 0x02#8, 0x03#8, 0x04#8], by decide⟩
/-- Both errors (an odd block, and a length beyond the buffer), and a block that `transform` accepts. -/
theorem witness_XformAgreesWithTransform :
    (finished.busy = false ∧ finished.keyLen ≤ chip.kbufCap ∧ finished.sched = [] ∧ finished.obuf.wf) ∧
    ((zeros 3).length = { finished with ilen := 3 }.blockLen ∧
      transform Config.hash (zeros 3) (keyBytes finished) 1 = .error .invalidInputLength) ∧
    ((zeros 66).length = { finished with ilen := 66 }.blockLen ∧
      transform Config.hash (zeros 66) (keyBytes finished) 1 = .error .blockTooLarge) ∧
    transform Config.hash (blockBytes { finished with rounds := 0 }) (keyBytes finished) 0 =
      .ok [0x03#8, 0x04#8, 0x01#8, 0x02#8] := by decide
theorem witness_AfterEachRoundTheHalvesAreTransforms : XformReady chip full ∧ full.sched = [] := by decide
theorem witness_HostStepsWhileBusyLeaveTheBlock :
    { running with sched := [.host], host := [.instr .clr] }.busy = true ∧
    { running with sched := [.host], host := [.instr .clr] }.turn = .host ∧
    ∃ t, step { running with sched := [.host], host := [.instr .clr] } = .next t := ⟨by decide, by decide, _, rfl⟩
theorem witness_BusyEndsOnlyByFinishOrReset : rounded.busy = true ∧ (nextOf (step rounded)).map (·.busy) = some false ∧
    (nextOf (step { running with sched := [.reset] })).map (·.busy) = some false := by decide
theorem witness_BusyReachesDone : Inv chip running ∧ running.busy = true ∧ running.sched = [] := by decide
theorem witness_XformWritesNoOperand : (∃ t, exec .xform loaded = .next t) ∧ (∃ t, exec .finish rounded = .next t) :=
  ⟨⟨_, rfl⟩, ⟨_, rfl⟩⟩
/-- By `FINISH`, by reset, and by the host's `CLR`. -/
theorem witness_ResultChangesOnlyWithDoneOrIdle : (∃ t, step rounded = .next t ∧ t.olen ≠ rounded.olen) ∧
    (∃ t, step { finished with sched := [.reset] } = .next t ∧ t.olen ≠ finished.olen) ∧
    (∃ t, step (withLine (.instr .clr)) = .next t ∧ t.olen ≠ finished.olen) :=
  ⟨⟨_, rfl, by decide⟩, ⟨_, rfl, by decide⟩, ⟨_, rfl, by decide⟩⟩
/-- Two states with the same operands and different everything else. -/
theorem witness_XformResultDependsOnOperandsOnly : Inv chip loaded ∧ Inv chip finished ∧ SameOperands loaded finished ∧
    XformReady chip loaded ∧ finished.busy = false ∧ loaded.sched = [] ∧ finished.sched = [] ∧
    ¬SameEngineState loaded finished :=
  ⟨by decide, by decide, by decide, by decide, by decide, by decide, by decide, by decide⟩
theorem witness_DigestAndXorcDependOnOperandsOnly : Inv chip loaded ∧ Inv chip finished ∧ SameOperands loaded finished ∧
    loaded.busy = false ∧ finished.busy = false :=
  ⟨by decide, by decide, by decide, by decide, by decide⟩
/-- Both branches of the last clause: a key longer than `KBUF_CAP`, and operands that fit. -/
theorem witness_ParametersAreArgumentsOfTheStep :
    ({ otherRounded with status := 0x00#8 }.busy = false ∧ { otherRounded with status := 0x00#8 }.blockLen ≤ 64 ∧
      { otherRounded with status := 0x00#8 }.keyLen ≤ otherChip.kbufCap ∧ { otherRounded with status := 0x00#8 }.obuf.wf) ∧
    ({ otherRounded with status := 0x00#8, klen := 17 }.busy = false ∧
      otherChip.kbufCap < { otherRounded with status := 0x00#8, klen := 17 }.keyLen ∧ otherChip.kbufCap ≤ 16) := by decide
theorem witness_EveryStepAtAnyParametersKeepsTheInvariants : otherChip.wellFormed ∧ Inv otherChip otherRounded ∧
    ∃ t, stepAt otherChip otherRounded = .next t := ⟨by decide, by decide, _, rfl⟩

end Sys2Proof.Tests
end

section
/-! The decoder by what the map answers, and the two directions of its agreement with the encoder (30_encoding R69). -/
namespace Sys2Proof
variable {p : Params}

/-! ### `CMD` values (30_encoding R62, R63) -/

theorem encodeCmd_decodeCmd : ∀ v : Byte, encodeCmd (decodeCmd v) = some v := by decide

theorem decodeCmd_of_encodeCmd {i : Instr} {v : Byte} (h : encodeCmd i = some v) : decodeCmd v = i := by
  cases i <;> simp only [encodeCmd, Option.some.injEq, reduceCtorEq] at h <;> subst h
  case clr => rfl
  case xform => rfl
  case digest => rfl
  case xorc => rfl
  case reserved04 low => revert low; decide
  case reserved08 low => revert low; decide
  case reserved10 low => revert low; decide
  case reserved20 low => revert low; decide
  case reserved40 low => revert low; decide
  case reserved80 low => revert low; decide

/-- The bus form of `decodeCmd_of_encodeCmd`. -/
theorem decodeBus_encode_of_encodeCmd {i : Instr} {v : Byte} {t : BusTxn} (hv : encodeCmd i = some v)
    (ht : encode p i = some t) : decodeBus p t = .ok i := by
  rw [encode_of_encodeCmd hv] at ht
  cases ht
  rw [decodeBus_cmdWrite, decodeCmd_of_encodeCmd hv]

/-! ### Host accesses (30_encoding R69) -/

/-- What `RD` and `WR` address, at its own offset and width. -/
theorem Params.target_regTarget (hp : p.wellFormed) {g : RegTarget} (hg : g.wellFormed p = true) :
    p.target (g.offset p) (g.width p) = .ok (.reg g) := by
  cases g with
  | reg r => exact (p.target_reg hp r _).trans (if_pos rfl)
  | reserved o w => exact p.target_reserved hp hg

theorem Params.target_bufByte (hp : p.wellFormed) {b : Buf} {k : Nat} (hk : k < p.cap b) :
    p.target (p.regmap.bufBase b + k) 8 = .ok (.byte b k) :=
  (p.target_byte hp b k 8 hk).trans (if_pos rfl)

theorem decodeBus_read_reg {o w : Nat} {g : RegTarget} (h : p.target o w = .ok (.reg g)) :
    decodeBus p (.read o w) = .ok (.rd g) := by
  simp only [decodeBus, h]

theorem decodeBus_write_reg {o w : Nat} {g : RegTarget} (v : BitVec w) (h : p.target o w = .ok (.reg g))
    (hg : g ≠ .reg .cmd) : decodeBus p (.write o w v) = .ok (.wr g v.toNat) := by
  simp only [decodeBus, h]

theorem decodeBus_write_cmd {o w : Nat} (v : BitVec w) (h : p.target o w = .ok (.reg (.reg .cmd))) :
    decodeBus p (.write o w v) = .ok (decodeCmd (v.setWidth 8)) := by
  simp only [decodeBus, h]

theorem decodeBus_read_byte {o w k : Nat} {b : Buf} (h : p.target o w = .ok (.byte b k)) :
    decodeBus p (.read o w) = .ok (.rdb b k) := by
  simp only [decodeBus, h]

theorem decodeBus_write_byte {o w k : Nat} {b : Buf} (v : BitVec w) (h : p.target o w = .ok (.byte b k)) :
    decodeBus p (.write o w v) = .ok (.wrb b k (v.setWidth 8)) := by
  simp only [decodeBus, h]

theorem encode_of_decodeBus_read {o w : Nat} {i : Instr} (h : decodeBus p (.read o w) = .ok i) :
    encode p i = some (.read o w) := by
  cases hx : p.target o w with
  | error e => simp [decodeBus, hx] at h
  | ok x =>
    rcases p.target_cases hx with ⟨g, rfl, rfl, rfl⟩ | ⟨b, k, rfl, rfl, -, rfl⟩ | ⟨rfl, -⟩
    · rw [decodeBus_read_reg hx] at h; cases h; rfl
    · rw [decodeBus_read_byte hx] at h; cases h; rfl
    · rw [decodeBus_read_reg hx] at h; cases h; rfl

/-- The value of a write survives its passage through the operand of `WR`, a number. -/
theorem encode_wr_toNat (g : RegTarget) (v : BitVec (g.width p)) :
    encode p (.wr g v.toNat) = some (.write (g.offset p) (g.width p) v) := by
  simp only [encode, BitVec.ofNat_toNat, BitVec.setWidth_eq]

theorem encode_of_decodeBus_write {o w : Nat} {v : BitVec w} {i : Instr} (h : decodeBus p (.write o w v) = .ok i) :
    encode p i = some (.write o w v) := by
  cases hx : p.target o w with
  | error e => simp [decodeBus, hx] at h
  | ok x =>
    rcases p.target_cases hx with ⟨g, rfl, rfl, rfl⟩ | ⟨b, k, rfl, rfl, -, rfl⟩ | ⟨rfl, -⟩
    · by_cases hg : g = .cmd
      · subst hg
        rw [decodeBus_write_cmd v hx] at h
        cases h
        rw [encode_of_encodeCmd (encodeCmd_decodeCmd _)]
        exact congrArg (some <| cmdWrite p ·) (BitVec.setWidth_eq v)
      · rw [decodeBus_write_reg v hx (by simpa using hg)] at h
        cases h
        exact encode_wr_toNat (.reg g) v
    · rw [decodeBus_write_byte v hx] at h
      cases h
      simp only [encode, BitVec.setWidth_eq]
    · rw [decodeBus_write_reg v hx (by simp)] at h
      cases h
      exact encode_wr_toNat (.reserved o w) v

end Sys2Proof
end

section
/-! The invariants of 10_state R28, kept by each named update and so by each move of `HostMove` and of the engine. -/
namespace Sys2Proof.Machine
open Sys2Proof.Safety
variable {rW lW : Nat} {p : Params} {s t : State rW lW}

theorem ErrCode.code_bounds {e : ErrCode} (he : e ≠ .none) : e.code ≠ 0#3 ∧ e.code ≤ 4#3 := by
  revert he
  cases e <;> decide

theorem statusLegal_raise {e : ErrCode} (he : e ≠ .none) (h : StatusLegal s) : StatusLegal (s.raise e) := by
  obtain ⟨-, -, hr⟩ := h
  obtain ⟨hne, hle⟩ := ErrCode.code_bounds he
  simp [StatusLegal, hr, hne, hle]

theorem statusLegal_accept {ph : Phase} (hph : ph ≠ .error) (h : StatusLegal s) : StatusLegal (s.accept ph) := by
  obtain ⟨-, -, hr⟩ := h
  simp [StatusLegal, ErrCode.code, hr, hph]

theorem statusLegal_done (hb : s.busy = true) (h : StatusLegal s) : StatusLegal (s.setPhase .done) := by
  obtain ⟨he, hc, hr⟩ := h
  have hne : ¬ s.phaseIs .error := fun hx => by cases State.phaseIs_unique hb hx
  simp only [StatusLegal, State.setPhase_status, State.setPhase_phaseIs, statusErr_withPhase,
    statusReserved_withPhase, he]
  exact ⟨by simpa using hne, hc, hr⟩

theorem toNat_ofNat_of_le_obufCap (hl : 8 ≤ lW) {n : Nat} (hn : n ≤ Config.obufCap) :
    (BitVec.ofNat lW n).toNat = n := by
  have : 2 ^ 8 ≤ 2 ^ lW := Nat.pow_le_pow_right (by decide) hl
  have : n ≤ 64 := hn
  exact Nat.mod_eq_of_lt (by omega)

theorem succ_le_of_lt {a b : BitVec rW} (h : a < b) : a + 1 ≤ b := by
  have h1 : (1 : BitVec rW).toNat ≤ 1 := Nat.mod_le _ _
  have h2 := Nat.mod_le (a.toNat + (1 : BitVec rW).toNat) (2 ^ rW)
  rw [BitVec.lt_def] at h
  rw [BitVec.le_def, BitVec.toNat_add]
  omega

/-- A result stored with zeros after it, as `XORC`, `DIGEST` and `FINISH` store theirs (10_state R23). -/
theorem inv_result (hl : 8 ≤ lW) (h : Inv p s) {res : Bytes} {m : Memory} (hn : res.length ≤ Config.obufCap)
    (hw : m.wf) (hin : m.within Config.obufCap)
    (hm : ∀ j, m.read j = if j < Config.obufCap then res[j]?.getD 0x00#8 else s.obuf.read j) :
    Inv p { s with olen := BitVec.ofNat lW res.length, obuf := m } := by
  obtain ⟨hs, hh, hb, -, hi, hk, -⟩ := h
  have hlen := toNat_ofNat_of_le_obufCap hl hn
  refine ⟨hs, hh, hb, ⟨hlen.le.trans hn, fun j hj hle => ?_⟩, hi, hk, hw, hin⟩
  rw [hm j, if_pos hj, List.getElem?_eq_none (hlen ▸ hle)]
  rfl

theorem inv_raise {e : ErrCode} (he : e ≠ .none) (h : Inv p s) : Inv p (s.raise e) := by
  obtain ⟨hs, hh, -, hr, hm⟩ := h
  exact ⟨statusLegal_raise he hs, hh, by simp [BusySound], hr, hm⟩

theorem inv_accept {ph : Phase} (hph : ph ≠ .error) (hnb : ph ≠ .busy) (h : Inv p s) : Inv p (s.accept ph) := by
  obtain ⟨hs, hh, -, hr, hm⟩ := h
  exact ⟨statusLegal_accept hph hs, hh, by simp [BusySound, hnb], hr, hm⟩

theorem inv_xformed (hx : XformReady p s) (h : Inv p s) : Inv p (xformed s) := by
  obtain ⟨hs, -, -, hr, hm⟩ := h
  obtain ⟨-, heven, hhalf, hkey⟩ := hx
  have hlen : (xformed s).halfLen = s.blockLen / 2 := by
    have : s.blockLen / 2 ≤ 32 := hhalf
    simp only [xformed, State.halfLen, State.accept_half, BitVec.toNat_ofNat]
    omega
  have hsized : HalvesSized (xformed s) := by
    refine ⟨hlen.le.trans hhalf, ?_, ?_⟩ <;> rw [hlen] <;> exact Memory.readBytes_length ..
  have hbusy : BusySound p (xformed s) := fun _ =>
    ⟨Nat.zero_le _, by rw [hlen]; show s.blockLen = _; omega, hkey⟩
  exact ⟨statusLegal_accept (by decide) hs, hsized, hbusy, hr, hm⟩

theorem inv_cleared (h : Inv p s) (hc : clearCommand s = .ok t) : Inv p t := by
  obtain ⟨hs, -, -, -, hi, hk, hw, hin⟩ := h
  obtain ⟨m, hm, hmw, hread, hmin⟩ := clearCommand_ok hw
  rw [hm] at hc
  cases hc
  exact ⟨statusLegal_accept (by decide) hs, by simp [HalvesSized, State.halfLen], by simp [BusySound],
    ⟨by simp, fun j hj _ => (hread j).trans (if_pos hj)⟩, hi, hk, hmw, hmin hin⟩

theorem inv_writeReg (hb : s.busy = false) (h : Inv p s) (v : Nat) (g : Reg) : Inv p (s.writeReg v g) := by
  obtain ⟨hs, hh, -, hr, hm⟩ := h
  have hb' : (s.writeReg v g).busy = false := (State.busy_congr (by simp)).trans hb
  have hsound : BusySound p (s.writeReg v g) := by simp [BusySound, hb']
  cases g <;> exact ⟨hs, hh, hsound, hr, hm⟩

theorem inv_writeBuf (h : Inv p s) {b : Buf} {i : Nat} (v : Byte) (hi : i < p.cap b) : Inv p (s.writeBuf i v b) := by
  obtain ⟨hs, hh, hb, hr, ⟨hiw, hiin⟩, ⟨hkw, hkin⟩, ho⟩ := h
  cases b with
  | ibuf => exact ⟨hs, hh, hb, hr, ⟨Memory.write_wf i v hiw, Memory.write_within v hiin hi⟩, ⟨hkw, hkin⟩, ho⟩
  | kbuf => exact ⟨hs, hh, hb, hr, ⟨hiw, hiin⟩, ⟨Memory.write_wf i v hkw, Memory.write_within v hkin hi⟩, ho⟩
  | obuf => exact ⟨hs, hh, hb, hr, ⟨hiw, hiin⟩, ⟨hkw, hkin⟩, ho⟩

theorem inv_stored (hl : 8 ≤ lW) (h : Inv p s) {res : Bytes} (hst : storeResult res s = .ok t) :
    Inv p (t.accept .done) := by
  obtain ⟨hn, -⟩ := storeResult_frame hst
  have ⟨_, _, _, _, _, _, hw, hin⟩ := h
  obtain ⟨m, hm, hmw, hread, hmin⟩ := storeResult_ok hn hw
  rw [hm] at hst
  cases hst
  exact inv_accept (by decide) (by decide) (inv_result hl h hn hmw (hmin hin) hread)

/-- Every host instruction keeps the invariants of 10_state R28. -/
theorem HostMove.inv (hl : 8 ≤ lW) (h : Inv p s) (hmv : HostMove p s t) : Inv p t := by
  cases hmv with
  | hostSide ls q => exact h
  | raised e _ he => exact inv_raise he h
  | accepted hx => exact inv_xformed hx h
  | stored res u _ hst => exact inv_stored hl h hst
  | cleared _ _ hc => exact inv_cleared h hc
  | register v g hb => exact inv_writeReg hb h v g
  | byte b i v _ hi => exact inv_writeBuf h v hi

theorem State.applyReset_phaseIs (s : State rW lW) (ph : Phase) :
    s.applyReset.phaseIs ph = decide (Phase.idle = ph) := by
  cases ph <;> rfl

theorem inv_applyReset (s : State rW lW) : Inv p s.applyReset := by
  have hs : StatusLegal s.applyReset := by
    simp only [StatusLegal, State.applyReset_phaseIs, State.applyReset_status]
    decide
  have hb : BusySound p s.applyReset := by simp [BusySound, State.busy, State.applyReset_phaseIs]
  have hempty : ∀ cap, Memory.wf [] ∧ Memory.within cap [] := fun _ => ⟨Memory.wf_nil, by simp⟩
  exact ⟨hs, by simp [HalvesSized, State.halfLen], hb, ⟨by simp, fun _ _ _ => rfl⟩, hempty _, hempty _, hempty _⟩

theorem inv_round (he : s.engineStep = some .round) (h : Inv p s) (hr : roundStep p s = .ok t) : Inv p t := by
  obtain ⟨hbusy, hlt⟩ := State.engineStep_eq_round.1 he
  obtain ⟨hs, ⟨hcap, hlenL, hlenR⟩, hb, hres, hm⟩ := h
  obtain ⟨-, hblk, hkey⟩ := hb hbusy
  rw [roundStep_ok hkey hcap hlenL] at hr
  cases hr
  refine ⟨hs, ⟨hcap, hlenR, ?_⟩, fun _ => ⟨succ_le_of_lt hlt, hblk, hkey⟩, hres, hm⟩
  rw [xorBytes_length, List.length_take, digest_length, hlenL, Nat.min_eq_left hcap, Nat.min_self]
  rfl

theorem inv_finish (hl : 8 ≤ lW) (he : s.engineStep = some .finish) (h : Inv p s) (hf : finishStep s = .ok t) :
    Inv p t := by
  obtain ⟨hbusy, -⟩ := State.engineStep_eq_finish.1 he
  have ⟨_, ⟨hcap, hlenL, hlenR⟩, _, _, _, _, hw, hin⟩ := h
  obtain ⟨m, hm, hmw, hread, hmin⟩ := finishStep_ok hcap hlenL hlenR hw
  rw [hm] at hf
  cases hf
  have hlen : (s.r ++ s.l).length = 2 * s.halfLen := by simp [hlenL, hlenR]; omega
  have hfits : (s.r ++ s.l).length ≤ Config.obufCap := hlen.trans_le (Nat.mul_le_mul_left 2 hcap)
  obtain ⟨hs, hh, -, hr, hbuf⟩ := hlen ▸ inv_result hl h hfits hmw (hmin hin) hread
  exact ⟨statusLegal_done hbusy hs, hh, by simp [BusySound], hr, hbuf⟩

end Sys2Proof.Machine
end

section
/-! `WR` and `DIGEST` at any parameters, while not `BUSY` (00_scope R4). -/
namespace Sys2Proof.Machine
open Sys2Proof.Safety
variable {p : Params} {s : State p.roundsW p.lenW}

theorem execAt_wr_reg (hb : s.busy = false) {g : Reg} (hg : g ≠ .cmd) (v : Nat) :
    execAt p (.wr (.reg g) v) s = .next (s.writeReg v g) := by
  have hfree : writeLocked s (fun s => .next (s.writeReg v g)) = .next (s.writeReg v g) := writeLocked_free hb
  cases g with
  | cmd => exact absurd rfl hg
  | status | half | rounds | ridx | ilen | klen | olen => exact hfree

theorem execAt_digest_keyTooLong (hb : s.busy = false) (hlen : s.blockLen ≤ 64) (hkey : p.kbufCap < s.keyLen) :
    execAt p .digest s = .next (s.raise .resourceExhausted) := by
  simp only [execAt, digestAt, writeLocked_free hb, digestCommand]
  rw [if_neg (Nat.not_lt.2 hlen), if_pos hkey, settle_ok]

/-- `DIGEST` where both operands fit: the digest at the start of `OBUF`, zeros after it
(41_hash_round_function_wrapper R115). -/
theorem execAt_digest_ok (hb : s.busy = false) (hlen : s.blockLen ≤ 64) (hkey : s.keyLen ≤ p.kbufCap)
    (hw : s.obuf.wf) : ∃ m : Memory,
      execAt p .digest s = .next (State.accept .done { s with olen := BitVec.ofNat p.lenW 32, obuf := m }) ∧ m.wf ∧
      ∀ j, m.read j = if j < 64 then (digest p.hash (blockBytes s) (keyBytes s))[j]?.getD 0x00#8 else s.obuf.read j := by
  obtain ⟨m, hst, hmw, hread, -⟩ :=
    storeResult_ok (s := s) (res := digest p.hash (blockBytes s) (keyBytes s)) (by simp) hw
  rw [digest_length] at hst
  refine ⟨m, ?_, hmw, hread⟩
  simp only [execAt, digestAt, writeLocked_free hb, digestCommand_ok hlen hkey, hst]
  rfl

theorem digest_getElem? (hash : Bytes → Vector Byte Config.digestLen) (m k : Bytes) {j : Nat} (hj : j < 32) :
    (digest hash m k)[j]? = some ((digest hash m k)[j]?.getD 0x00#8) := by
  rw [List.getElem?_eq_getElem (by simpa using hj), Option.getD_some]

end Sys2Proof.Machine
end

section
/-! The statements of 00_scope. -/
namespace Sys2Proof.Machine
open Sys2Proof.Safety

/-- Settles O3, by cases on the instruction: a `CMD` value decodes by its own bits, a host access by what lies at its
offset (`Params.target_regTarget`, `Params.target_bufByte`). -/
theorem decodeOfEncodeIsTheInstruction : Obligations.DecodeOfEncodeIsTheInstruction := by
  intro p i t hp hw hc ht
  cases i with
  | rd g => cases ht; exact decodeBus_read_reg (p.target_regTarget hp hw)
  | wr g v =>
    cases ht
    obtain ⟨hg, hv⟩ : g ≠ .reg .cmd ∧ v < 2 ^ g.width p := by simpa [Instr.canonical] using hc
    rw [decodeBus_write_reg _ (p.target_regTarget hp hw) hg, BitVec.toNat_ofNat, Nat.mod_eq_of_lt hv]
  | rdb b k => cases ht; exact decodeBus_read_byte (p.target_bufByte hp (of_decide_eq_true hw))
  | wrb b k v =>
    cases ht
    rw [decodeBus_write_byte v (p.target_bufByte hp (of_decide_eq_true hw)), BitVec.setWidth_eq]
  | encrypt | decrypt => cases hc
  | round | finish | loadblk _ | loadkey _ | wait | readout | feedback => cases ht
  | clr | xform | digest | xorc | reserved04 _ | reserved08 _ | reserved10 _ | reserved20 _ | reserved40 _
  | reserved80 _ => exact decodeBus_encode_of_encodeCmd rfl ht

/-- Settles O4, by cases on the direction and on what the map answers at the offset (`Params.target_cases`). -/
theorem encodeOfDecodeIsTheTransaction : Obligations.EncodeOfDecodeIsTheTransaction := by
  intro p t i h
  cases t with
  | read o w => exact encode_of_decodeBus_read h
  | write o w v => exact encode_of_decodeBus_write h

/-- Settles O60, by cases on what a step can do (`stepAt_cases`). -/
theorem everyStepAtAnyParametersKeepsTheInvariants : Obligations.EveryStepAtAnyParametersKeepsTheInvariants := by
  intro p s t hp h hstep
  obtain ⟨-, hl, -⟩ := hp
  have hd : Inv p s.dropTurn := h
  rcases stepAt_cases hstep with ⟨-, rfl⟩ | ⟨-, he, hr⟩ | ⟨-, he, hf⟩ | ⟨-, -, rfl⟩ | ⟨-, -, rfl⟩ |
    ⟨-, -, -, -, -, -, -, hmv⟩
  · exact inv_applyReset _
  · exact inv_round (by simpa using he) hd hr
  · exact inv_finish hl (by simpa using he) hd hf
  · exact hd
  · exact hd
  · exact hmv.inv hl (s := s.dropTurn.dropLine) hd

/-- Settles O7: the host's turn runs what `resolveLine` answers. -/
theorem stepRunsTheHostsInstruction : Obligations.StepRunsTheHostsInstruction := by
  refine ⟨fun s ln rest i hturn hhost hi => ?_, fun s i hi => ?_, fun s t i ht => ?_⟩
  · have hi' : resolveLine chip s.dropTurn ln = .ok i := (resolveLine_dropTurn s ln).trans hi
    simp only [step, stepWith, hturn, hostTurn, State.dropTurn_host, hhost, hi']
    simp only [State.dropTurn, State.dropLine, hhost, List.tail_cons]
  · simp only [resolveLine, hi, if_true]
  · simp only [resolveLine, ht]

/-- Settles O59: `exec` and `step` are the relation at the defaults, and each sample use of a parameter is the rule of
the operation that takes it. -/
theorem parametersAreArgumentsOfTheStep : Obligations.ParametersAreArgumentsOfTheStep := by
  refine ⟨exec_eq_execAt, step_eq_stepAt, ⟨rfl, rfl, rfl, rfl, chip_wellFormed⟩, fun p s hb => ⟨?_, ?_, ?_, ?_, ?_, ?_⟩⟩
  · exact execAt_wr_reg hb (by decide : Reg.rounds ≠ .cmd)
  · exact execAt_wr_reg hb (by decide : Reg.ilen ≠ .cmd)
  · exact execAt_digest_keyTooLong hb
  · exact fun k v hk => if_neg (Nat.not_lt.2 hk)
  · intro hlen hkey hw
    obtain ⟨m, hexec, -, hread⟩ := execAt_digest_ok hb hlen hkey hw
    refine ⟨_, hexec, fun j hj => (digest_getElem? p.hash _ _ hj).trans ?_⟩
    rw [State.accept_obuf, hread, if_pos (by omega)]
  · intro v
    have h : decodeBus p (.write p.regmap.cmd 8 v) = .ok (decodeCmd v) := decodeBus_cmdWrite v
    simp only [resolveLine, h]

end Sys2Proof.Machine
end

section
/-! A result and how a command that ends at once shows it: `STATUS`, `OLEN` and `OBUF` as a function of the operands
(10_state R26). -/
namespace Sys2Proof.Machine
open Sys2Proof.Safety
variable {rW lW : Nat} {p : Params} {s s' t t' : State rW lW}

/-! ### What a state shows the host -/

/-- The state shows the host the result `res`: `DONE` with no error, its length, its bytes and zeros after them. -/
def ShowsResult (res : Bytes) (t : State rW lW) : Prop :=
  t.status = packStatus 0 ErrCode.none.code Phase.done.code ∧ t.olen = BitVec.ofNat lW res.length ∧
    ∀ j, t.obuf.read j = res[j]?.getD 0x00#8

/-- The state shows the host how a command ended: an error in `STATUS`, or the result (60_exceptions R140). -/
def Shows (t : State rW lW) : Except ErrCode Bytes → Prop
  | .error e => t.status = packStatus 0 e.code Phase.error.code
  | .ok res => ShowsResult res t

theorem ShowsResult.sameResult {res : Bytes} (h : ShowsResult res t) (h' : ShowsResult res t') : SameResult t t' := by
  obtain ⟨hs, hl, hr⟩ := h
  obtain ⟨hs', hl', hr'⟩ := h'
  exact ⟨hs.trans hs'.symm, hl.trans hl'.symm, fun j => (hr j).trans (hr' j).symm⟩

theorem Shows.sameEnd {x : Except ErrCode Bytes} (h : Shows t x) (h' : Shows t' x) :
    t.status = t'.status ∧ (t.phaseIs .done = true → SameResult t t') := by
  cases x with
  | error e =>
    have hs : t.status = packStatus 0 e.code Phase.error.code := h
    exact ⟨hs.trans (Eq.symm h'), fun hd => by simp [State.phaseIs, hs] at hd⟩
  | ok res =>
    have hsame : SameResult t t' := ShowsResult.sameResult h h'
    exact ⟨hsame.1, fun _ => hsame⟩

theorem Shows.raise (h : StatusLegal s) (e : ErrCode) : Shows (s.raise e) (.error e) := by
  obtain ⟨-, -, hr⟩ := h
  simp only [Shows, State.raise_status, withPhase_withErr, hr]

theorem accept_status_of_legal (h : StatusLegal s) (ph : Phase) :
    (s.accept ph).status = packStatus 0 ErrCode.none.code ph.code := by
  obtain ⟨-, -, hr⟩ := h
  rw [State.accept_status, withPhase_withErr, hr]

/-- Nothing is stored beyond the capacity (20_memory R44). -/
theorem Memory.read_of_within {m : Memory} {cap j : Nat} (h : m.within cap) (hj : cap ≤ j) : m.read j = 0x00#8 :=
  Memory.read_above fun c hc => Nat.lt_of_lt_of_le (h c hc) hj

/-- The bytes of a padded result of at most `OBUF_CAP` bytes, at every offset. -/
theorem read_padded {m m' : Memory} {res : Bytes} (hl : res.length ≤ Config.obufCap) (hin : m'.within Config.obufCap)
    (hm : ∀ j, m.read j = if j < Config.obufCap then res[j]?.getD 0x00#8 else m'.read j) (j : Nat) :
    m.read j = res[j]?.getD 0x00#8 := by
  rw [hm j]
  split
  · rfl
  · have hj : Config.obufCap ≤ j := Nat.le_of_not_lt ‹_›
    rw [Memory.read_of_within hin hj, List.getElem?_eq_none (hl.trans hj), Option.getD_none]

theorem storeResult_shows (h : Inv p s) {res : Bytes} (hl : res.length ≤ Config.obufCap) :
    ∃ t, (do let u ← storeResult res s; return u.accept .done) = Except.ok (ε := Stop) t ∧ Shows t (.ok res) := by
  obtain ⟨hs, -, -, -, -, -, hw, hin⟩ := h
  obtain ⟨m, hm, -, hread, -⟩ := storeResult_ok hl hw
  rw [hm]
  exact ⟨_, rfl, accept_status_of_legal hs .done, rfl, read_padded hl hin hread⟩

/-! ### `DIGEST` and `XORC` as functions of the operands -/

/-- How `DIGEST` ends (41_hash_round_function_wrapper R115). -/
def digestEnd (p : Params) (s : State rW lW) : Except ErrCode Bytes :=
  if s.blockLen > Config.ibufCap then .error .resourceExhausted
  else if s.keyLen > p.kbufCap then .error .resourceExhausted
  else .ok (digest p.hash (blockBytes s) (keyBytes s))

/-- How `XORC` ends (42_block_xor_combine R124). -/
def xorEnd (s : State rW lW) : Except ErrCode Bytes :=
  if s.blockLen % 2 = 1 then .error .invalidInputLength
  else if s.blockLen > Config.ibufCap then .error .resourceExhausted
  else .ok (xorBytes (s.ibuf.readBytes 0 (s.blockLen / 2)) (s.ibuf.readBytes (s.blockLen / 2) (s.blockLen / 2)))

theorem digestEnd_congr (h : SameOperands s s') : digestEnd p s = digestEnd p s' := by
  obtain ⟨-, hi, hk, hib, hkb⟩ := h
  rw [digestEnd, digestEnd, blockBytes, keyBytes, State.blockLen, State.keyLen, hi, hk, hib, hkb]
  rfl

theorem xorEnd_congr (h : SameOperands s s') : xorEnd s = xorEnd s' := by
  obtain ⟨-, hi, -, hib, -⟩ := h
  rw [xorEnd, xorEnd, State.blockLen, hi, hib]
  rfl

theorem digestCommand_shows (h : Inv p s) : ∃ t, digestCommand p s = .ok t ∧ Shows t (digestEnd p s) := by
  by_cases hblock : s.blockLen > Config.ibufCap
  · simp only [digestCommand, digestEnd, if_pos hblock]
    exact ⟨_, rfl, .raise h.1 _⟩
  by_cases hkey : s.keyLen > p.kbufCap
  · simp only [digestCommand, digestEnd, if_neg hblock, if_pos hkey]
    exact ⟨_, rfl, .raise h.1 _⟩
  · rw [digestCommand_ok (Nat.le_of_not_lt hblock) (Nat.le_of_not_lt hkey), digestEnd, if_neg hblock, if_neg hkey]
    exact storeResult_shows h (by simp)

theorem xorCommand_shows (h : Inv p s) : ∃ t, xorCommand s = .ok t ∧ Shows t (xorEnd s) := by
  by_cases hodd : s.blockLen % 2 = 1
  · simp only [xorCommand, xorEnd, if_pos hodd]
    exact ⟨_, rfl, .raise h.1 _⟩
  by_cases hblock : s.blockLen > Config.ibufCap
  · simp only [xorCommand, xorEnd, if_neg hodd, if_pos hblock]
    exact ⟨_, rfl, .raise h.1 _⟩
  · have hle : s.blockLen ≤ 64 := Nat.le_of_not_lt hblock
    rw [xorCommand_ok (by omega) hle, xorEnd, if_neg hodd, if_neg hblock]
    exact storeResult_shows h (by simp; omega)

theorem exec_digest_shows {s : State} (h : Inv chip s) (hb : s.busy = false) :
    ∃ t, exec .digest s = .next t ∧ Shows t (digestEnd chip s) := by
  obtain ⟨t, ht, hshows⟩ := digestCommand_shows h
  exact ⟨t, by rw [exec_digest, writeLocked_free hb, ht, settle_ok], hshows⟩

theorem exec_xorc_shows {s : State} (h : Inv chip s) (hb : s.busy = false) :
    ∃ t, exec .xorc s = .next t ∧ Shows t (xorEnd s) := by
  obtain ⟨t, ht, hshows⟩ := xorCommand_shows h
  exact ⟨t, by rw [exec_xorc, writeLocked_free hb, ht, settle_ok], hshows⟩

end Sys2Proof.Machine
end

section
/-! The engine alone: its rounds are the rounds of `transform`, and the last step shows the result (40_feistel_round_engine
R92, R101; log 6). -/
namespace Sys2Proof.Machine
open Sys2Proof.Safety
variable {s : State} {k : Nat}

/-- The engine runs alone and every primitive it uses is defined: `BUSY`, no turn fixed, the key and the halves sized. -/
structure EngineRuns (s : State) : Prop where
  sched : s.sched = []
  busy : s.busy = true
  key : s.keyLen ≤ chip.kbufCap
  halves : HalvesSized s

/-- The pair `(L_k, R_k)` of `transform` from the halves of `s` (R101). -/
def halvesAfter (s : State) (k : Nat) : Bytes × Bytes :=
  feistelHalves Config.hash (keyBytes s) s.halfLen (s.l, s.r) k

/-- The state `k` rounds later (40_feistel_round_engine R86 to R90). -/
def afterRounds (s : State) (k : Nat) : State :=
  { s with l := (halvesAfter s k).1, r := (halvesAfter s k).2, ridx := s.ridx + BitVec.ofNat Config.roundsW k }

theorem afterRounds_zero (s : State) : afterRounds s 0 = s := by
  simp [afterRounds, halvesAfter, feistelHalves]

theorem EngineRuns.halvesAfter_length (h : EngineRuns s) (k : Nat) :
    (halvesAfter s k).1.length = s.halfLen ∧ (halvesAfter s k).2.length = s.halfLen := by
  obtain ⟨hcap, hl, hr⟩ := h.halves
  exact feistelHalves_length hl hr hcap k

theorem engineRuns_afterRounds (h : EngineRuns s) (k : Nat) : EngineRuns (afterRounds s k) where
  sched := h.sched
  busy := h.busy
  key := h.key
  halves := ⟨h.halves.1, h.halvesAfter_length k⟩

theorem afterRounds_ridx_toNat (hk : s.ridx.toNat + k ≤ s.rounds.toNat) :
    (afterRounds s k).ridx.toNat = s.ridx.toNat + k := by
  have : s.rounds.toNat < 2 ^ 32 := s.rounds.isLt
  simp only [afterRounds, BitVec.toNat_add, BitVec.toNat_ofNat, Config.roundsW_eq]
  omega

theorem EngineRuns.engineStep_round (h : EngineRuns s) (hk : s.ridx.toNat + k < s.rounds.toNat) :
    (afterRounds s k).engineStep = some .round := by
  refine State.engineStep_eq_round.2 ⟨h.busy, ?_⟩
  rw [BitVec.lt_def, afterRounds_ridx_toNat hk.le]
  exact hk

theorem EngineRuns.engineStep_finish (h : EngineRuns s) (hk : s.ridx.toNat + k = s.rounds.toNat) :
    (afterRounds s k).engineStep = some .finish :=
  State.engineStep_eq_finish.2 ⟨h.busy, BitVec.eq_of_toNat_eq ((afterRounds_ridx_toNat hk.le).trans hk)⟩

theorem EngineRuns.step_afterRounds (h : EngineRuns s) (hk : s.ridx.toNat + k < s.rounds.toNat) :
    step (afterRounds s k) = .next (afterRounds s (k + 1)) := by
  obtain ⟨hsched, -, hkey, hcap, hl, -⟩ := engineRuns_afterRounds h k
  rw [step_round hsched (h.engineStep_round hk), roundStep_ok hkey hcap hl, settle_ok]
  have hridx : (afterRounds s k).ridx + 1 = (afterRounds s (k + 1)).ridx := by
    simp only [afterRounds, BitVec.ofNat_add, BitVec.add_assoc]
    rfl
  rw [hridx]
  rfl

/-- The rounds of the machine are the rounds of `transform` (40_feistel_round_engine R92, R101). -/
theorem EngineRuns.run_rounds (h : EngineRuns s) (hk : s.ridx.toNat + k ≤ s.rounds.toNat) :
    Host.Core.run core k s = .next (afterRounds s k) := by
  induction k with
  | zero => rw [afterRounds_zero]; rfl
  | succ k ih => rw [run_add (ih (by omega)), run_one (h.step_afterRounds (by omega))]

/-- `FINISH` ends the operation: `R` then `L` of the last round, and zeros after them (40_feistel_round_engine R91). -/
theorem EngineRuns.run_finish (h : EngineRuns s) (hk : s.ridx.toNat + k = s.rounds.toNat) (hw : s.obuf.wf) :
    ∃ m : Memory, Host.Core.run core (k + 1) s = .next (State.setPhase .done
        { afterRounds s k with olen := BitVec.ofNat Config.lenW (2 * s.halfLen), obuf := m }) ∧ m.wf ∧
      (∀ j, m.read j = if j < Config.obufCap then ((halvesAfter s k).2 ++ (halvesAfter s k).1)[j]?.getD 0x00#8
        else s.obuf.read j) ∧
      (s.obuf.within Config.obufCap → m.within Config.obufCap) := by
  obtain ⟨hsched, -, -, hcap, hl, hr⟩ := engineRuns_afterRounds h k
  obtain ⟨m, hm, hfacts⟩ := finishStep_ok hcap hl hr hw
  have hstep := step_finish hsched (h.engineStep_finish hk)
  rw [hm, settle_ok] at hstep
  exact ⟨m, (run_add (h.run_rounds hk.le)).trans (run_one hstep), hfacts⟩

theorem engineRuns_xformed (h : XformReady chip s) (hs : s.sched = []) : EngineRuns (xformed s) := by
  obtain ⟨-, -, hhalf, hkey⟩ := h
  refine ⟨hs, xformed_busy s, hkey, ?_⟩
  have hlen := xformed_halfLen hhalf
  refine ⟨hlen.le.trans hhalf, ?_, ?_⟩ <;> rw [hlen] <;> exact Memory.readBytes_length ..

theorem xformed_status (h : StatusLegal s) :
    (xformed s).status = packStatus 0 ErrCode.none.code Phase.busy.code :=
  accept_status_of_legal h .busy

/-- The result of an accepted `XFORM`, a function of the operands (40_feistel_round_engine R92). -/
def xformResult (s : State) : Bytes :=
  (halvesAfter (xformed s) s.rounds.toNat).2 ++ (halvesAfter (xformed s) s.rounds.toNat).1

theorem xformResult_congr {s s' : State} (h : SameOperands s s') : xformResult s = xformResult s' := by
  obtain ⟨hr, hi, hk, hib, hkb⟩ := h
  have hkey : keyBytes (xformed s) = keyBytes (xformed s') := by
    show s.kbuf.readBytes 0 s.klen.toNat = s'.kbuf.readBytes 0 s'.klen.toNat
    rw [hk, hkb]
  simp only [xformResult, halvesAfter, hkey]
  simp only [xformed, State.accept_l, State.accept_r, State.halfLen, State.accept_half, State.blockLen, hr, hi, hib]

/-- An accepted `XFORM`, the engine alone moving, ends with `xformResult` shown. -/
theorem run_xformed_shows (h : Inv chip s) (hx : XformReady chip s) (hs : s.sched = []) :
    ∃ t, Host.Core.run core (s.rounds.toNat + 1) (xformed s) = .next t ∧ ShowsResult (xformResult s) t := by
  obtain ⟨hlegal, -, -, -, -, -, hw, hin⟩ := h
  have heng := engineRuns_xformed hx hs
  obtain ⟨m, hrun, -, hread, -⟩ := heng.run_finish (k := s.rounds.toNat) (Nat.zero_add _) hw
  obtain ⟨hl, hr⟩ := heng.halvesAfter_length s.rounds.toNat
  have hlen : (xformResult s).length = 2 * (xformed s).halfLen := by
    rw [xformResult, List.length_append, hl, hr, Nat.two_mul]
  have hstatus : withPhase .done (xformed s).status = packStatus 0 ErrCode.none.code Phase.done.code := by
    rw [xformed_status hlegal, withPhase, statusReserved_pack, statusErr_pack]
  refine ⟨_, hrun, hstatus, congrArg (BitVec.ofNat Config.lenW) hlen.symm, read_padded ?_ hin hread⟩
  exact hlen.trans_le (Nat.mul_le_mul_left 2 heng.halves.1)

end Sys2Proof.Machine
end

section
/-! What can change the result operand, `OLEN` and `OBUF` (10_state R23). -/
namespace Sys2Proof.Machine
open Sys2Proof.Safety
variable {rW lW : Nat} {p : Params} {s t : State rW lW}

/-- The result operand is as it was. -/
abbrev KeepsResult (s t : State rW lW) : Prop := t.obuf = s.obuf ∧ t.olen = s.olen

/-- The host's instructions that can write the result operand: `CLR`, `DIGEST`, `XORC`, as a command or as the `WR` of
`CMD`. -/
def WritesResult (i : Instr) : Prop :=
  i = .clr ∨ i = .digest ∨ i = .xorc ∨ ∃ v : Nat, i = .wr (.reg .cmd) v ∧ v % 2 ^ 8 ∈ [0x00, 0x02, 0x03]

/-- A host move keeps the result, or stores or clears it and says so in the phase. -/
theorem HostMove.keepsResult_or (h : HostMove p s t) :
    KeepsResult s t ∨ (s.busy = false ∧ (t.phaseIs .done = true ∨ t.phaseIs .idle = true)) := by
  cases h with
  | hostSide | raised | accepted => exact .inl ⟨rfl, rfl⟩
  | stored _ u hb _ => exact .inr ⟨hb, .inl (by simp)⟩
  | cleared _ hb hc =>
    rw [clearCommand_eq] at hc
    cases hc
    exact .inr ⟨hb, .inr (by simp)⟩
  | register v g => exact .inl ⟨s.writeReg_obuf v g, s.writeReg_olen v g⟩
  | byte b i v => exact .inl ⟨s.writeBuf_obuf i v b, s.writeBuf_olen i v b⟩

/-- A guarded step that is taken is the step it guards. -/
theorem eq_next_of_guarded {c : Prop} [Decidable c] {x : Result rW lW} {e : Refusal}
    (h : (if c then x else .refused e) = .next t) : x = .next t := by
  split at h
  · exact h
  · cases h

theorem keepsResult_locked {f : State rW lW → Result rW lW} (h : writeLocked s f = .next t)
    (hf : s.busy = false → f s = .next t → KeepsResult s t) : KeepsResult s t := by
  rcases writeLocked_next h with ⟨-, rfl⟩ | ⟨hb, h⟩
  · exact ⟨rfl, rfl⟩
  · exact hf hb h

theorem xformAccept_keepsResult (hb : s.busy = false) (h : settle (xformAccept p s) = .next t) : KeepsResult s t := by
  rw [settle_eq_next] at h
  rcases xformAccept_cases (p := p) hb with ⟨e, -, hx⟩ | ⟨-, hx⟩ <;> rw [hx] at h <;> cases h <;> exact ⟨rfl, rfl⟩

theorem acceptCommand_keepsResult {v : Byte} (h0 : v ≠ 0x00#8) (h2 : v ≠ 0x02#8) (h3 : v ≠ 0x03#8)
    (h : acceptCommand p v s = .next t) : KeepsResult s t :=
  keepsResult_locked h fun hb h => by
    simp only [if_neg h0, if_neg h2, if_neg h3] at h
    split at h
    · exact xformAccept_keepsResult hb h
    · cases h; exact ⟨rfl, rfl⟩

theorem writeTarget_keepsResult {g : RegTarget} {v : Nat} (hv : g = .reg .cmd → v % 2 ^ 8 ∉ [0x00, 0x02, 0x03])
    (h : writeTarget p g v s = .next t) : KeepsResult s t := by
  have plain : ∀ g, writeLocked s (fun s => Host.Outcome.next (s.writeReg v g)) = .next t → KeepsResult s t :=
    fun g h => keepsResult_locked h fun _ h => by
      cases h; exact ⟨s.writeReg_obuf v g, s.writeReg_olen v g⟩
  cases g with
  | reserved o w =>
    simp only [writeTarget] at h
    split at h <;> cases h
    exact ⟨rfl, rfl⟩
  | reg g =>
    cases g with
    | cmd =>
      have hmem : ∀ c ∈ [0x00, 0x02, 0x03], c % 2 ^ 8 ∈ [0x00, 0x02, 0x03] := by decide
      have hne : ∀ c ∈ [0x00, 0x02, 0x03], BitVec.ofNat 8 v ≠ BitVec.ofNat 8 c := fun c hc he => by
        have hmod : v % 2 ^ 8 = c % 2 ^ 8 := congrArg BitVec.toNat he
        exact hv rfl (hmod ▸ hmem c hc)
      exact acceptCommand_keepsResult (hne 0x00 (by decide)) (hne 0x02 (by decide)) (hne 0x03 (by decide)) h
    | status | half | rounds | ridx | ilen | klen | olen => exact plain _ h

/-- Every other instruction of the host keeps the result. -/
theorem exec_keepsResult {i : Instr} {s t : State} (hi : i.hostIssued = true) (hw : ¬ WritesResult i)
    (h : exec i s = .next t) : KeepsResult s t := by
  simp only [WritesResult, not_or, not_exists, not_and] at hw
  obtain ⟨hclr, hdigest, hxorc, hwr⟩ := hw
  have xform (h : exec .xform s = .next t) : KeepsResult s t :=
    keepsResult_locked (exec_xform s ▸ h) xformAccept_keepsResult
  have reserved (hr : isReserved i = true) : KeepsResult s t :=
    keepsResult_locked (exec_isReserved hr s ▸ h) fun _ h => by cases h; exact ⟨rfl, rfl⟩
  cases i with
  | clr => exact absurd rfl hclr
  | digest => exact absurd rfl hdigest
  | xorc => exact absurd rfl hxorc
  | round | finish => cases hi
  | xform | encrypt | decrypt => exact xform h
  | reserved04 | reserved08 | reserved10 | reserved20 | reserved40 | reserved80 => exact reserved rfl
  | wr g v => exact writeTarget_keepsResult (fun hg => hwr v (congrArg (Instr.wr · v) hg)) h
  | rd g =>
    cases g with
    | reg => cases h; exact ⟨rfl, rfl⟩
    | reserved => cases eq_next_of_guarded h; exact ⟨rfl, rfl⟩
  | rdb | loadblk | loadkey => cases eq_next_of_guarded h; exact ⟨rfl, rfl⟩
  | wrb b k v =>
    exact keepsResult_locked (eq_next_of_guarded h) fun _ h => by
      cases h; exact ⟨s.writeBuf_obuf k v b, s.writeBuf_olen k v b⟩
  | wait =>
    simp only [exec, execWait] at h
    split at h <;> cases h <;> exact ⟨rfl, rfl⟩
  | readout | feedback => cases h; exact ⟨rfl, rfl⟩

end Sys2Proof.Machine
end

section
/-! The engine's turn and the value of `STATUS` a host reads. -/
namespace Sys2Proof.Machine
variable {rW lW : Nat}

theorem step_of_engine {s : State} (h : s.turn = .engine) : step s = engineTurn exec s.dropTurn := by
  simp only [step, stepWith, h]

theorem engineTurn_some {run : Instr → State rW lW → Result rW lW} {s : State rW lW} {i : Instr}
    (h : s.engineStep = some i) : engineTurn run s = run i s := by
  simp only [engineTurn, h]

theorem engineTurn_none {run : Instr → State rW lW → Result rW lW} {s : State rW lW} (h : s.engineStep = none) :
    engineTurn run s = .next s := by
  simp only [engineTurn, h]

theorem State.engineStep_of_not_busy {s : State rW lW} (h : s.busy = false) : s.engineStep = none := by
  simp [State.engineStep, h]

/-- `PHASE + 4 * ERR` (43_control R132). -/
theorem statusRead_toNat : ∀ b : Byte, (statusRead b).toNat = (statusPhase b).toNat + 4 * (statusErr b).toNat := by
  decide

end Sys2Proof.Machine
end

section
/-! The statements of 10_state. -/
namespace Sys2Proof.Machine
open Sys2Proof.Safety

/-- Settles O14: O60 at the chip's parameters. -/
theorem everyStepKeepsTheInvariants : Obligations.EveryStepKeepsTheInvariants := by
  intro s t h hstep
  rw [step_eq_stepAt] at hstep
  exact everyStepAtAnyParametersKeepsTheInvariants chip s t chip_wellFormed h hstep

/-- Settles O13: the reset state is what a reset turn leaves of it. -/
theorem invariantsHoldAtReset : Obligations.InvariantsHoldAtReset := inv_applyReset State.reset

/-- Settles O56, by cases on what a step can do (`step_cases`); for a host's line the phase is that of its move
(`HostMove.keepsResult_or`) and the instruction is one that does not keep the result (`exec_keepsResult`). -/
theorem resultChangesOnlyWithDoneOrIdle : Obligations.ResultChangesOnlyWithDoneOrIdle := by
  intro s t hstep hne
  have hchanged : ¬ KeepsResult s t := fun ⟨ho, hl⟩ => hne.elim (absurd ho) (absurd hl)
  rcases step_cases hstep with ⟨hturn, rfl⟩ | ⟨-, -, hr⟩ | ⟨hturn, he, hf⟩ | ⟨-, -, rfl⟩ | ⟨-, -, rfl⟩ |
    ⟨hturn, ln, rest, i, hhost, hi, hexec, hmv⟩
  · exact ⟨.inr (State.applyReset_phaseIs _ _), .inl hturn⟩
  · obtain ⟨_, rfl⟩ := roundStep_frame hr
    exact absurd ⟨rfl, rfl⟩ hchanged
  · obtain ⟨_, rfl⟩ := finishStep_frame hf
    exact ⟨.inl (by simp), .inr (.inl ⟨hturn, State.engineStep_eq_finish.1 he⟩)⟩
  · exact absurd ⟨rfl, rfl⟩ hchanged
  · exact absurd ⟨rfl, rfl⟩ hchanged
  · rcases hmv.keepsResult_or with hkeeps | ⟨hb, hphase⟩
    · exact absurd hkeeps hchanged
    · have hwrites : WritesResult i := not_not.1 fun hw =>
        hchanged (exec_keepsResult (s := s.dropTurn.dropLine) (resolveLine_hostIssued hi) hw hexec)
      exact ⟨hphase, .inr (.inr ⟨hturn, hb, ln, rest, i, hhost, hi, hwrites⟩)⟩

/-- Settles O57: each run ends with `xformResult` shown, which is the same for the same operands. -/
theorem xformResultDependsOnOperandsOnly : Obligations.XformResultDependsOnOperandsOnly := by
  intro s s' h h' hsame hx hb' hs hs'
  have hx' : XformReady chip s' := by
    obtain ⟨-, hi, hk, -, -⟩ := hsame
    obtain ⟨-, heven, hhalf, hkey⟩ := hx
    simp only [State.blockLen, State.keyLen, hi, hk] at heven hhalf hkey
    exact ⟨hb', heven, hhalf, hkey⟩
  obtain ⟨t, hrun, hshows⟩ := run_xformed_shows h hx hs
  obtain ⟨t', hrun', hshows'⟩ := run_xformed_shows h' hx' hs'
  rw [← hsame.1] at hrun'
  rw [← xformResult_congr hsame] at hshows'
  exact ⟨_, _, t, t', execXform_ready hx, execXform_ready hx', hrun, hrun', hshows.sameResult hshows'⟩

/-- Settles O11: by computation, and no engine step is enabled outside `BUSY`. -/
theorem resetLeavesTheTabledValues : Obligations.ResetLeavesTheTabledValues := by
  have hengine : State.reset.engineStep = none := State.engineStep_of_not_busy (by decide)
  exact ⟨rfl, rfl, rfl, rfl, rfl, rfl, rfl, fun _ => ⟨rfl, rfl, rfl⟩, hengine⟩

/-- Settles O58: how each command ends (`digestEnd`, `xorEnd`) is the same for the same operands. -/
theorem digestAndXorcDependOnOperandsOnly : Obligations.DigestAndXorcDependOnOperandsOnly := by
  intro i s s' hi h h' hsame hb hb'
  rcases hi with rfl | rfl
  · obtain ⟨t, ht, hshows⟩ := exec_digest_shows h hb
    obtain ⟨t', ht', hshows'⟩ := exec_digest_shows h' hb'
    exact ⟨t, t', ht, ht', hshows.sameEnd (digestEnd_congr hsame ▸ hshows')⟩
  · obtain ⟨t, ht, hshows⟩ := exec_xorc_shows h hb
    obtain ⟨t', ht', hshows'⟩ := exec_xorc_shows h' hb'
    exact ⟨t, t', ht, ht', hshows.sameEnd (xorEnd_congr hsame ▸ hshows')⟩

/-- Settles O8, by the cases of the enabled engine step. -/
theorem stepRunsTheEnabledEngineStep : Obligations.StepRunsTheEnabledEngineStep := by
  intro s hturn
  refine ⟨fun hb hlt => ?_, fun hb heq => ?_, fun hb => ?_⟩ <;> rw [step_of_engine hturn]
  · exact engineTurn_some (State.engineStep_eq_round.2 ⟨hb, hlt⟩)
  · exact engineTurn_some (State.engineStep_eq_finish.2 ⟨hb, heq⟩)
  · exact engineTurn_none (State.engineStep_of_not_busy hb)

/-- Settles O27, by cases on the register; only `STATUS` is read through its fields. -/
theorem readReturnsTheRegister : Obligations.ReadReturnsTheRegister := by
  intro g s
  refine ⟨s.readReg g, rfl, ?_⟩
  cases g with
  | status => exact statusRead_toNat s.status
  | cmd | half | rounds | ridx | ilen | klen | olen => rfl

end Sys2Proof.Machine
end

section
/-! Accesses the map refuses (20_memory R43; log 11). -/
namespace Sys2Proof
variable {p : Params}

theorem decodeBus_of_target_error {o w : Nat} {e : BusError} (v : BitVec w) (h : p.target o w = .error e) :
    decodeBus p (.read o w) = .error e ∧ decodeBus p (.write o w v) = .error e := by
  simp only [decodeBus, h, and_self]

/-- What is no whole register, no buffer byte and no reserved access is refused (`Params.target_cases`). -/
theorem Params.target_error_of_no_object {o w : Nat} (hreg : ∀ g : Reg, ¬(o = p.regmap.regBase g ∧ w = g.width p))
    (hbyte : ∀ (b : Buf) (k : Nat), k < p.cap b → ¬(o = p.regmap.bufBase b + k ∧ w = 8))
    (hres : ¬ p.isReserved o w = true) : p.target o w = .error .accessWidth := by
  cases hx : p.target o w with
  | error e => rw [p.target_error hx]
  | ok x =>
    rcases p.target_cases hx with ⟨g, -, ho, hw⟩ | ⟨b, k, -, ho, hk, hw⟩ | ⟨-, hr⟩
    · exact absurd ⟨ho, hw⟩ (hreg g)
    · exact absurd ⟨ho, hw⟩ (hbyte b k hk)
    · exact absurd hr hres

end Sys2Proof
end

section
/-! The host's turn, by its next line. -/
namespace Sys2Proof.Machine
variable {rW lW : Nat} {p : Params} {s : State rW lW} {ln : Line} {rest : List Line}
variable {run : Instr → State rW lW → Result rW lW}

theorem step_of_host {s : State} (h : s.turn = .host) : step s = hostTurn chip exec s.dropTurn := by
  simp only [step, stepWith, h]

theorem resolveLine_bus_error {t : BusTxn} {e : BusError} (h : decodeBus p t = .error e) :
    resolveLine p s (.bus t) = .error (.badAccess e) := by
  simp only [resolveLine, h]

theorem hostTurn_nil (hs : s.host = []) : hostTurn p run s = .next s := by
  simp only [hostTurn, hs]

theorem hostTurn_ok {i : Instr} (hs : s.host = ln :: rest) (h : resolveLine p s ln = .ok i) :
    hostTurn p run s = run i s.dropLine := by
  simp only [hostTurn, hs, h]

theorem hostTurn_refused {e : Refusal} (hs : s.host = ln :: rest) (h : resolveLine p s ln = .error e) :
    hostTurn p run s = .refused e := by
  simp only [hostTurn, hs, h]

end Sys2Proof.Machine
end

section
/-! The write lock (20_memory R52): what a host's instruction does to a `BUSY` block. -/
namespace Sys2Proof.Machine
open Sys2Proof.Safety
variable {rW lW : Nat} {p : Params} {s t : State rW lW}

theorem exec_busy_of_locked {i : Instr} {s : State} {f : State → Result} (hb : s.busy = true)
    (h : exec i s = writeLocked s f) : exec i s = .next s :=
  h.trans (writeLocked_busy hb)

theorem exec_wr_busy {s : State} (hb : s.busy = true) {g : RegTarget} (hg : g.wellFormed chip = true) (v : Nat) :
    exec (.wr g v) s = .next s := by
  cases g with
  | reserved o w => exact if_pos hg
  | reg g =>
    by_cases hcmd : g = .cmd
    · subst hcmd
      rw [exec_wr_cmd]
      exact writeLocked_busy hb
    · exact exec_busy_of_locked hb (exec_wr_reg hcmd v s)

/-- While `BUSY` only the host's own side can change: every other move needs a phase that is not `BUSY`. -/
theorem HostMove.eq_hostSide_of_busy (hb : s.busy = true) (h : HostMove p s t) :
    ∃ (ls : List Line) (q : List Nat), t = { s with host := ls, responses := q } := by
  have locked {c : Prop} (hfree : s.busy = false) : c := by simp [hb] at hfree
  cases h with
  | hostSide ls q => exact ⟨ls, q, rfl⟩
  | raised _ hfree | stored _ _ hfree | cleared _ hfree | register _ _ hfree | byte _ _ _ hfree => exact locked hfree
  | accepted hx => exact locked hx.1

/-- A host's step while `BUSY` changes the host's side and the schedule only. -/
theorem step_host_busy {s t : State} (hb : s.busy = true) (hturn : s.turn = .host) (h : step s = .next t) :
    ∃ (ls : List Line) (q : List Nat), t = { s.dropTurn with host := ls, responses := q } := by
  have hcases := step_cases h
  simp only [hturn, reduceCtorEq, false_and, false_or, true_and] at hcases
  rcases hcases with ⟨-, rfl⟩ | ⟨-, -, -, -, -, -, hmv⟩
  · exact ⟨s.host, s.responses, rfl⟩
  · exact hmv.eq_hostSide_of_busy (s := s.dropTurn.dropLine) (by simpa using hb)

end Sys2Proof.Machine
end

section
/-! No fault under the invariants: every computation of a command completes, and every other instruction answers a next
state or a refusal (60_exceptions R157, 20_memory R44). -/
namespace Sys2Proof.Machine
open Sys2Proof.Safety
variable {rW lW : Nat} {p : Params} {s : State rW lW}

/-- The step does not end in a fault. -/
def FaultFree (x : Result rW lW) : Prop := ∀ f : Fault, x ≠ .fault f

theorem faultFree_next (t : State rW lW) : FaultFree (.next t) := nofun

theorem faultFree_refused (e : Refusal) : FaultFree (rW := rW) (lW := lW) (.refused e) := nofun

theorem faultFree_guarded {c : Prop} [Decidable c] {x : Result rW lW} {e : Refusal} (h : FaultFree x) :
    FaultFree (if c then x else .refused e) := by
  split
  · exact h
  · exact faultFree_refused e

theorem faultFree_locked {f : State rW lW → Result rW lW} (h : s.busy = false → FaultFree (f s)) :
    FaultFree (writeLocked s f) := by
  cases hb : s.busy
  · rw [writeLocked_free hb]; exact h hb
  · rw [writeLocked_busy hb]; exact faultFree_next s

theorem faultFree_settle {x : Except Stop (State rW lW)} (h : ∃ t, x = .ok t) : FaultFree (settle x) := by
  obtain ⟨t, rfl⟩ := h
  exact faultFree_next t

theorem faultFree_clear (s : State rW lW) : FaultFree (settle (clearCommand s)) :=
  faultFree_settle ⟨_, clearCommand_eq s⟩

theorem faultFree_xform (hb : s.busy = false) : FaultFree (settle (xformAccept p s)) :=
  faultFree_settle ((xformAccept_cases hb).elim (fun ⟨e, _, h⟩ => ⟨s.raise e, h⟩) fun ⟨_, h⟩ => ⟨xformed s, h⟩)

theorem faultFree_digest (h : Inv p s) : FaultFree (settle (digestCommand p s)) :=
  faultFree_settle ((digestCommand_shows h).imp fun _ => And.left)

theorem faultFree_xor (h : Inv p s) : FaultFree (settle (xorCommand s)) :=
  faultFree_settle ((xorCommand_shows h).imp fun _ => And.left)

theorem faultFree_acceptCommand (h : Inv p s) (v : Byte) : FaultFree (acceptCommand p v s) :=
  faultFree_locked fun hb => by
    split
    · exact faultFree_clear s
    split
    · exact faultFree_xform hb
    split
    · exact faultFree_digest h
    split
    · exact faultFree_xor h
    · exact faultFree_next _

theorem faultFree_writeTarget (h : Inv p s) (g : RegTarget) (v : Nat) : FaultFree (writeTarget p g v s) := by
  cases g with
  | reserved o w => exact faultFree_guarded (faultFree_next s)
  | reg g =>
    have plain : FaultFree (writeLocked s fun s => .next (s.writeReg v g)) :=
      faultFree_locked fun _ => faultFree_next _
    cases g with
    | cmd => exact faultFree_acceptCommand h _
    | status | half | rounds | ridx | ilen | klen | olen => exact plain

theorem faultFree_readTarget (g : RegTarget) (s : State rW lW) : FaultFree (readTarget p g s) := by
  cases g with
  | reserved o w => exact faultFree_guarded (faultFree_next _)
  | reg g => exact faultFree_next _

theorem faultFree_exec_of_locked {i : Instr} {s : State} {f : State → Result} (h : exec i s = writeLocked s f)
    (hf : s.busy = false → FaultFree (f s)) : FaultFree (exec i s) :=
  h ▸ faultFree_locked hf

theorem faultFree_exec {i : Instr} {s : State} (hi : i.hostIssued = true) (h : Inv chip s) : FaultFree (exec i s) := by
  cases i with
  | clr => exact faultFree_exec_of_locked (exec_clr s) fun _ => faultFree_clear s
  | xform | encrypt | decrypt => exact faultFree_exec_of_locked (exec_xform s) faultFree_xform
  | digest => exact faultFree_exec_of_locked (exec_digest s) fun _ => faultFree_digest h
  | xorc => exact faultFree_exec_of_locked (exec_xorc s) fun _ => faultFree_xor h
  | reserved04 | reserved08 | reserved10 | reserved20 | reserved40 | reserved80 =>
    exact faultFree_exec_of_locked (exec_isReserved rfl s) fun _ => faultFree_next _
  | rd g => exact faultFree_readTarget g s
  | wr g v => exact faultFree_writeTarget h g v
  | wrb b k v => exact faultFree_guarded (faultFree_locked fun _ => faultFree_next _)
  | rdb | loadblk | loadkey => exact faultFree_guarded (faultFree_next _)
  | round | finish => cases hi
  | wait | readout | feedback => exact faultFree_next _

theorem faultFree_hostTurn {s : State} (h : Inv chip s) : FaultFree (hostTurn chip exec s) := by
  cases hhost : s.host with
  | nil => rw [hostTurn_nil hhost]; exact faultFree_next s
  | cons ln rest =>
    cases hi : resolveLine chip s ln with
    | error e => rw [hostTurn_refused hhost hi]; exact faultFree_refused e
    | ok i =>
      rw [hostTurn_ok hhost hi]
      exact faultFree_exec (s := s.dropLine) (resolveLine_hostIssued hi) h

/-- Under the invariants the operands of `ROUND` and `FINISH` are defined, so the engine's turn completes. -/
theorem engineTurn_completes {s : State} (h : Inv chip s) : ∃ t, engineTurn exec s = .next t := by
  have ⟨_, ⟨hcap, hlenL, hlenR⟩, hsound, _, _, _, hw, _⟩ := h
  rcases s.engineStep_cases with he | he | he
  · obtain ⟨hb, -⟩ := State.engineStep_eq_round.1 he
    obtain ⟨-, -, hkey⟩ := hsound hb
    rw [engineTurn_some he, exec_round he, roundStep_ok hkey hcap hlenL]
    exact ⟨_, rfl⟩
  · obtain ⟨m, hm, -⟩ := finishStep_ok hcap hlenL hlenR hw
    rw [engineTurn_some he]
    exact ⟨_, (exec_finish he).trans (congrArg settle hm)⟩
  · exact ⟨s, engineTurn_none he⟩

end Sys2Proof.Machine
end

section
/-! The statements of 20_memory. -/
namespace Sys2Proof.Machine
open Sys2Proof.Safety

/-- Settles O6: another width at an object's offset by what the map answers there (`Params.target_reg`,
`Params.target_byte`), any other access as one that addresses no object (`Params.target_error_of_no_object`). -/
theorem otherAccessWidthsAreRefused : Obligations.OtherAccessWidthsAreRefused := by
  refine ⟨fun g w v hw => ?_, fun b k w v hk hw => ?_, fun o w v hreg hbyte hres => ?_, fun s t rest e hturn hhost he => ?_⟩
  · exact decodeBus_of_target_error v ((chip.target_reg chip_wellFormed g w).trans (if_neg hw))
  · exact decodeBus_of_target_error v ((chip.target_byte chip_wellFormed b k w hk).trans (if_neg hw))
  · exact decodeBus_of_target_error v (chip.target_error_of_no_object hreg hbyte (mt chip_isReserved_iff.1 hres))
  · rw [step_of_host hturn]
    exact hostTurn_refused (s := s.dropTurn) hhost (resolveLine_bus_error he)

/-- Settles O15, by whose turn it is. -/
theorem noStepFaultsUnderTheInvariants : Obligations.NoStepFaultsUnderTheInvariants := by
  intro s h
  have hd : Inv chip s.dropTurn := h
  have engine (hturn : s.turn = .engine) : ∃ t, step s = .next t := by
    rw [step_of_engine hturn]
    exact engineTurn_completes hd
  have faultFree : FaultFree (step s) := by
    cases hturn : s.turn with
    | reset => simp only [step, stepWith, hturn]; exact faultFree_next _
    | engine =>
      obtain ⟨t, ht⟩ := engine hturn
      rw [ht]
      exact faultFree_next t
    | host => rw [step_of_host hturn]; exact faultFree_hostTurn hd
  exact ⟨faultFree, engine⟩

/-- Settles O19, by cases on the instruction: each write is a write-locked step. -/
theorem hostWritesAreIgnoredWhileBusy : Obligations.HostWritesAreIgnoredWhileBusy := by
  intro i s hi hw hb
  cases i with
  | clr => exact exec_busy_of_locked hb (exec_clr s)
  | xform | encrypt | decrypt => exact exec_busy_of_locked hb (exec_xform s)
  | digest => exact exec_busy_of_locked hb (exec_digest s)
  | xorc => exact exec_busy_of_locked hb (exec_xorc s)
  | reserved04 | reserved08 | reserved10 | reserved20 | reserved40 | reserved80 =>
    exact exec_busy_of_locked hb (exec_isReserved rfl s)
  | wr g v => exact exec_wr_busy hb hw v
  | wrb b k v => exact exec_busy_of_locked hb (exec_wrb (of_decide_eq_true hw) v s)
  | rd | rdb | round | finish | loadblk | loadkey | wait | readout | feedback => cases hi

/-- Settles O29: the reserved accesses of the default map are those of `chip_isReserved_iff`. -/
theorem reservedOffsetsReadZeroAndIgnoreWrites : Obligations.ReservedOffsetsReadZeroAndIgnoreWrites := by
  intro o w v x s hpos hle hplace
  have hres : chip.isReserved o w = true := chip_isReserved_iff.2 ⟨⟨hpos, hle⟩, hplace⟩
  have htarget := chip.target_reserved chip_wellFormed hres
  exact ⟨decodeBus_read_reg htarget, decodeBus_write_reg x htarget nofun, if_pos hres, if_pos hres⟩

/-- Settles O31: the write is not locked, and a buffer is read after it by `Memory.read_write`. -/
theorem writeByteStoresTheByte : Obligations.WriteByteStoresTheByte := by
  intro k v s hb hk
  have hexec (b : Buf) : exec (.wrb b k v) s = .next (s.writeBuf k v b) :=
    (exec_wrb (by simpa using hk) v s).trans (writeLocked_free hb)
  exact ⟨fun hw => ⟨_, hexec .ibuf, Memory.write_wf k v hw, fun x => Memory.read_write k v x hw⟩,
    fun hw => ⟨_, hexec .kbuf, Memory.write_wf k v hw, fun x => Memory.read_write k v x hw⟩, hexec .obuf⟩

/-- Settles O52: a host's step while `BUSY` leaves all but the host's side and the schedule (`step_host_busy`). -/
theorem hostStepsWhileBusyLeaveTheBlock : Obligations.HostStepsWhileBusyLeaveTheBlock := by
  intro s t hb hturn hstep
  obtain ⟨ls, q, rfl⟩ := step_host_busy hb hturn hstep
  exact ⟨⟨rfl, rfl, rfl, rfl, rfl⟩, rfl, rfl, rfl, rfl, rfl, rfl, rfl⟩

/-- Settles O53, by cases on what a step can do (`step_cases`): all but reset and `FINISH` keep `STATUS`. -/
theorem busyEndsOnlyByFinishOrReset : Obligations.BusyEndsOnlyByFinishOrReset := by
  intro s t hb hstep hfree
  have hne : t.status ≠ s.status := fun h => by simp [State.busy_congr h, hb] at hfree
  rcases step_cases hstep with ⟨hturn, -⟩ | ⟨-, -, hr⟩ | ⟨hturn, he, hf⟩ | ⟨-, -, rfl⟩ | ⟨-, -, rfl⟩ | ⟨hturn, -⟩
  · exact .inl hturn
  · obtain ⟨_, rfl⟩ := roundStep_frame hr
    exact absurd rfl hne
  · obtain ⟨_, rfl⟩ := finishStep_frame hf
    exact .inr ⟨hturn, (State.engineStep_eq_finish.1 he).2, by simp⟩
  · exact absurd rfl hne
  · exact absurd rfl hne
  · obtain ⟨_, _, rfl⟩ := step_host_busy hb hturn hstep
    exact absurd rfl hne

/-- Settles O1: each `CMD` value is the encoding of its row, each transaction lies at the offset of its object. -/
theorem wordsOfTheSpecDecode : Obligations.WordsOfTheSpecDecode := by
  have value {i : Instr} {v : Byte} (h : encodeCmd i = some v) : decodeCmd v = i := decodeCmd_of_encodeCmd h
  have reg (g : Reg) : chip.target (chip.regmap.regBase g) (g.width chip) = .ok (.reg (.reg g)) :=
    chip.target_regTarget chip_wellFormed (g := .reg g) rfl
  have byte (b : Buf) {k : Nat} (hk : k < 64) : chip.target (chip.regmap.bufBase b + k) 8 = .ok (.byte b k) :=
    chip.target_bufByte chip_wellFormed (by simpa using hk)
  exact ⟨value rfl, value rfl, value rfl, value rfl, value rfl, value rfl, value rfl, value rfl, value rfl, value rfl,
    decodeBus_write_cmd 0x01#8 (reg .cmd), decodeBus_write_reg 0x13#32 (reg .rounds) nofun,
    decodeBus_write_reg 0x0002#16 (reg .klen) nofun, decodeBus_read_reg (reg .status),
    decodeBus_read_byte (byte .obuf (by decide : 3 < 64)), decodeBus_write_byte 0xBB#8 (byte .kbuf (by decide : 1 < 64))⟩

/-- Settles O9: with no turn fixed it is the engine's exactly while a step of it is enabled. -/
theorem turnsAreTakenAsFixed : Obligations.TurnsAreTakenAsFixed := by
  refine ⟨fun s u rest hs => ?_, fun s hs hb hle => ?_, fun s hs hb => State.turn_host hb hs⟩
  · simp only [State.turn, hs]
  · rcases Nat.lt_or_eq_of_le (BitVec.le_def.1 hle) with hlt | heq
    · exact State.turn_engine hs (State.engineStep_eq_round.2 ⟨hb, BitVec.lt_def.2 hlt⟩)
    · exact State.turn_engine hs (State.engineStep_eq_finish.2 ⟨hb, BitVec.eq_of_toNat_eq heq⟩)

end Sys2Proof.Machine
end

section
/-! A pseudo-instruction run to its end: its lines one by one, while no operation is in progress and no turn is fixed
(30_encoding R67; logs 6 and 10). -/
namespace Sys2Proof.Machine

/-! ### Bytes written and read back -/

theorem Memory.readBytes_writeBytes {m : Memory} (a : Nat) (v : Bytes) (h : m.wf) :
    (m.writeBytes a v).readBytes a v.length = v := by
  refine List.ext_getElem (by simp) fun j _ hj => ?_
  rw [Memory.readBytes_getElem, Memory.read_writeBytes a v _ h]
  simp [hj]

theorem Memory.read_writeBytes_beyond {m : Memory} {v : Bytes} {x : Nat} (h : m.wf) (hx : v.length ≤ x) :
    (m.writeBytes 0 v).read x = m.read x := by
  simp [Memory.read_writeBytes 0 v x h, hx]

/-- The block after a `WRB` of each byte from index `i` on, in rising order. -/
def State.writeBufs (b : Buf) (i : Nat) : Bytes → State → State
  | [], s => s
  | v :: bs, s => (s.writeBuf i v b).writeBufs b (i + 1) bs

theorem State.writeBufs_ibuf (i : Nat) (bs : Bytes) (s : State) :
    s.writeBufs .ibuf i bs = { s with ibuf := s.ibuf.writeBytes i bs } := by
  induction bs generalizing i s with
  | nil => rfl
  | cons v bs ih => exact ih (i + 1) _

theorem State.writeBufs_kbuf (i : Nat) (bs : Bytes) (s : State) :
    s.writeBufs .kbuf i bs = { s with kbuf := s.kbuf.writeBytes i bs } := by
  induction bs generalizing i s with
  | nil => rfl
  | cons v bs ih => exact ih (i + 1) _

@[simp] theorem State.writeBufs_busy (b : Buf) (i : Nat) (bs : Bytes) (s : State) : (s.writeBufs b i bs).busy = s.busy := by
  induction bs generalizing i s with
  | nil => rfl
  | cons v bs ih => exact (ih (i + 1) _).trans (State.busy_congr (State.writeBuf_status s i v b))

@[simp] theorem State.writeBufs_sched (b : Buf) (i : Nat) (bs : Bytes) (s : State) : (s.writeBufs b i bs).sched = s.sched := by
  induction bs generalizing i s with
  | nil => rfl
  | cons v bs ih => exact (ih (i + 1) _).trans (State.writeBuf_sched s i v b)

/-! ### One issued line -/

section
variable {s : State} {ls : List Line}

theorem step_issue {ln : Line} {i : Instr} (hb : s.busy = false) (hs : s.sched = []) (h : resolveLine chip s ln = .ok i) :
    step (s.issue (ln :: ls)) = exec i (s.issue ls) := by
  have hi : resolveLine chip (s.issue (ln :: ls)) ln = .ok i := by cases ln <;> exact h
  exact step_line (s := s.issue (ln :: ls)) hb hs rfl hi

theorem resolveLine_wrbLast {j v : Nat} (h : s.responses.getLast? = some v) :
    resolveLine chip s (.wrbLast j) = .ok (.wrb .ibuf j (BitVec.ofNat 8 v)) := by
  simp only [resolveLine, h]

theorem writeBuf_issue (k : Nat) (v : Byte) (b : Buf) : (s.issue ls).writeBuf k v b = (s.writeBuf k v b).issue ls := by
  cases b <;> rfl

theorem exec_wrb_free {b : Buf} {k : Nat} (hb : s.busy = false) (hk : k < 64) (v : Byte) :
    exec (.wrb b k v) s = .next (s.writeBuf k v b) :=
  (exec_wrb (by simpa using hk) v s).trans (writeLocked_free hb)

theorem step_rdb {b : Buf} {k : Nat} (hb : s.busy = false) (hs : s.sched = []) (hk : k < 64) :
    step (s.issue (.instr (.rdb b k) :: ls)) = .next ((s.respond ((s.buf b).read k).toNat).issue ls) := by
  rw [step_issue hb hs rfl]
  refine (if_pos (by simpa using hk)).trans ?_
  cases b <;> rfl

theorem step_wrb {b : Buf} {k : Nat} {v : Byte} (hb : s.busy = false) (hs : s.sched = []) (hk : k < 64) :
    step (s.issue (.instr (.wrb b k v) :: ls)) = .next ((s.writeBuf k v b).issue ls) := by
  rw [step_issue hb hs rfl, exec_wrb_free (s := s.issue ls) hb hk, writeBuf_issue]

theorem step_wrbLast {k : Nat} {v : Byte} (hb : s.busy = false) (hs : s.sched = []) (hk : k < 64) :
    step ((s.respond v.toNat).issue (.wrbLast k :: ls)) = .next (((s.respond v.toNat).writeBuf k v .ibuf).issue ls) := by
  have hlast : (s.respond v.toNat).responses.getLast? = some v.toNat := by simp
  have hline : resolveLine chip (s.respond v.toNat) (.wrbLast k) = .ok (.wrb .ibuf k v) := by
    simpa using resolveLine_wrbLast (j := k) hlast
  rw [step_issue (s := s.respond v.toNat) hb hs hline, exec_wrb_free (s := (s.respond v.toNat).issue ls) hb hk]
  rfl

/-- The last line of a load: the length register. -/
theorem step_wr_reg {g : Reg} {v : Nat} (hb : s.busy = false) (hs : s.sched = []) (hg : g ≠ .cmd) :
    step (s.issue [.instr (.wr (.reg g) v)]) = .next (s.writeReg v g) := by
  rw [step_issue hb hs rfl, exec_wr_reg hg]
  exact writeLocked_free hb

end

/-! ### All lines of an expansion -/

theorem run_writeLines {b : Buf} {i : Nat} {bs : Bytes} {s : State} {ls : List Line} (hb : s.busy = false)
    (hs : s.sched = []) (hcap : i + bs.length ≤ 64) :
    Host.Core.run core bs.length (s.issue (writeLines b i bs ++ ls)) = .next ((s.writeBufs b i bs).issue ls) := by
  induction bs generalizing i s with
  | nil => rfl
  | cons v bs ih =>
    rw [List.length_cons] at hcap ⊢
    refine (run_succ (step_wrb hb hs (by omega))).trans ?_
    exact ih ((State.busy_congr (State.writeBuf_status s i v b)).trans hb)
      ((State.writeBuf_sched s i v b).trans hs) (by omega)

/-- The expansion of a load: the bytes, then the length in the register `g`. -/
theorem run_load {b : Buf} {g : Reg} {bs : Bytes} {s : State} (hb : s.busy = false) (hs : s.sched = [])
    (hcap : bs.length ≤ 64) (hg : g ≠ .cmd) :
    Host.Core.run core (bs.length + 1) (s.issue (writeLines b 0 bs ++ [.instr (.wr (.reg g) bs.length)])) =
      .next ((s.writeBufs b 0 bs).writeReg bs.length g) := by
  rw [run_add (run_writeLines hb hs (by omega))]
  exact run_one (step_wr_reg (by simpa using hb) (by simpa using hs) hg)

theorem run_readLines {b : Buf} {i n : Nat} {s : State} {ls : List Line} (hb : s.busy = false) (hs : s.sched = [])
    (hcap : i + n ≤ 64) : Host.Core.run core n (s.issue (readLines b i n ++ ls)) =
      .next ({ s with responses := s.responses ++ ((s.buf b).readBytes i n).map BitVec.toNat }.issue ls) := by
  induction n generalizing i s with
  | zero => simp [readLines, Memory.readBytes, Host.Core.run]
  | succ n ih =>
    rw [readLines, List.cons_append, run_succ (step_rdb hb hs (by omega)), ih (s := s.respond _) hb hs (by omega)]
    cases b <;> simp [Memory.readBytes, State.respond, State.buf]

/-- The state after the copy of `n` result bytes from index `i` on: the host has read them, and `IBUF` holds them. -/
def State.copied (i n : Nat) (s : State) : State :=
  { s with
    ibuf := s.ibuf.writeBytes i (s.obuf.readBytes i n)
    responses := s.responses ++ (s.obuf.readBytes i n).map BitVec.toNat }

theorem run_copyLines {i n : Nat} {s : State} {ls : List Line} (hb : s.busy = false) (hs : s.sched = [])
    (hcap : i + n ≤ 64) :
    Host.Core.run core (2 * n) (s.issue (copyLines i n ++ ls)) = .next ((s.copied i n).issue ls) := by
  induction n generalizing i s with
  | zero => simp [copyLines, State.copied, Memory.readBytes, Memory.writeBytes, Host.Core.run]
  | succ n ih =>
    rw [copyLines, List.cons_append, List.cons_append, Nat.mul_succ, run_succ (step_rdb hb hs (by omega)),
      run_succ (step_wrbLast hb hs (by omega)), ih (s := (s.respond _).writeBuf i _ .ibuf) hb hs (by omega)]
    simp [State.copied, Memory.readBytes, Memory.writeBytes, State.respond, State.writeBuf, State.buf]

end Sys2Proof.Machine
end

section
/-! The statements of 30_encoding. -/
namespace Sys2Proof.Machine
open Sys2Proof.Safety

/-- Settles O2, by the two directions between values and rows. -/
theorem everyCommandValueHasExactlyOneRow : Obligations.EveryCommandValueHasExactlyOneRow :=
  ⟨encodeCmd_decodeCmd, fun _ _ => decodeCmd_of_encodeCmd⟩

/-- Settles O5: the transaction of each spelling is a write that the map answers. -/
theorem secondSpellingsDecodeToTheirCommand : Obligations.SecondSpellingsDecodeToTheirCommand := by
  have xform (t : BusTxn) (ht : encode chip .xform = some t) : decodeBus chip t = .ok .xform :=
    decodeBus_encode_of_encodeCmd rfl ht
  refine ⟨fun v t ht => ?_, xform, xform, fun g v t hg hw ht => ?_⟩
  · cases ht
    exact decodeBus_cmdWrite (BitVec.ofNat 8 v)
  · cases ht
    rw [decodeBus_write_reg _ (chip.target_regTarget chip_wellFormed hw) hg, BitVec.toNat_ofNat]

/-- Settles O36: the expansions are `writeLines` and the length, guarded by the capacity. -/
theorem loadsExpandToByteWrites : Obligations.LoadsExpandToByteWrites := by
  refine fun bs s => ⟨fun h => (if_pos h).trans ?_, fun h => (if_pos h).trans ?_,
    fun h => if_neg (Nat.not_le.2 h), fun h => if_neg (Nat.not_le.2 h)⟩
  · simp [State.issue, loadBlockLines, writeLines_eq]
  · simp [State.issue, loadKeyLines, writeLines_eq]

/-- Settles O37: `WAIT` by its one branch, the others by their lists of lines. -/
theorem pseudoReadsExpandToTheirTransactions : Obligations.PseudoReadsExpandToTheirTransactions := by
  refine fun s => ⟨fun hb => ?_, fun hb => ?_, ?_, ?_⟩
  · simp [exec, execWait, hb, State.respond]
  · simp [exec, execWait, hb, State.respond, State.issue]
  · simp [exec, execReadout, readLines_eq, State.respond, State.issue]
  · simp [exec, execFeedback, feedbackLines, copyLines_eq, State.issue]

/-- Settles O38, by the run of a load's lines. -/
theorem loadblkLoadsTheBlock : Obligations.LoadblkLoadsTheBlock := by
  intro bs s hb hs hcap hw
  refine ⟨_, s.ibuf.writeBytes 0 bs, if_pos hcap, ?_, Memory.readBytes_writeBytes 0 bs hw,
    fun x hx => Memory.read_writeBytes_beyond hw hx⟩
  exact (run_load (g := .ilen) hb hs hcap nofun).trans (by rw [State.writeBufs_ibuf]; rfl)

/-- Settles O39, by the run of a load's lines. -/
theorem loadkeyLoadsTheKey : Obligations.LoadkeyLoadsTheKey := by
  intro bs s hb hs hcap hw
  refine ⟨_, s.kbuf.writeBytes 0 bs, if_pos hcap, ?_, Memory.readBytes_writeBytes 0 bs hw,
    fun x hx => Memory.read_writeBytes_beyond hw hx⟩
  exact (run_load (g := .klen) hb hs hcap nofun).trans (by rw [State.writeBufs_kbuf]; rfl)

/-- Settles O40, by the run of the lines that read `OBUF`. -/
theorem readoutReturnsTheResult : Obligations.ReadoutReturnsTheResult := by
  intro s hb hs hcap
  have hrun := run_readLines (b := .obuf) (i := 0) (s := s.respond (s.readReg .olen)) (ls := []) hb hs
    (by simpa using hcap)
  rw [List.append_nil] at hrun
  refine ⟨_, rfl, hrun.trans ?_⟩
  simp [State.issue, State.respond, State.buf]

/-- Settles O41, by the run of the lines that copy `OBUF` to `IBUF`. -/
theorem feedbackMakesTheResultTheInput : Obligations.FeedbackMakesTheResultTheInput := by
  intro s hb hs hcap hw
  have hlen : (resultBytes s).length = s.olen.toNat := Memory.readBytes_length _ _ _
  refine ⟨_, s.ibuf.writeBytes 0 (resultBytes s), rfl, ?_, ?_, fun x hx =>
    Memory.read_writeBytes_beyond hw (hlen ▸ hx)⟩
  · rw [feedbackLines, run_add (run_copyLines hb hs (by omega))]
    refine (run_one (step_wr_reg (g := .ilen) (s := s.copied 0 s.olen.toNat) hb hs nofun)).trans ?_
    simp [State.writeReg, State.copied]
  · simpa only [hlen] using Memory.readBytes_writeBytes 0 (resultBytes s) hw

/-- Settles O10: the placed line is the host's next, and is taken off with its turn. -/
theorem placedWordIsRunNext : Obligations.PlacedWordIsRunNext := by
  intro s v
  have hword : BitVec.ofNat 8 v.toNat = v := by simp
  refine ⟨?_, ?_⟩
  · rw [decodeTableWord, if_pos ⟨rfl, v.isLt⟩, hword, decodeBus_cmdWrite]
    rfl
  · have hline : resolveLine chip s (.bus (cmdWrite chip (BitVec.ofNat 8 (v.toNat % 2 ^ 8)))) = .ok (decodeCmd v) := by
      rw [Nat.mod_eq_of_lt v.isLt, hword]
      simp only [resolveLine, decodeBus_cmdWrite]
    exact (step_of_host rfl).trans (hostTurn_ok (s := (s.withFetchWord 8 v.toNat).dropTurn) rfl hline)

end Sys2Proof.Machine
end

section
/-! The function `transform` (40_feistel_round_engine R80): its value on two halves, and the rounds run backwards. -/
namespace Sys2Proof.Machine
variable {hash : Bytes → Vector Byte Config.digestLen} {key B C : Bytes} {h n : Nat} {x : Bytes × Bytes}

/-! ### The rounds -/

theorem feistelHalves_succ_first (n : Nat) :
    feistelHalves hash key h x (n + 1) = feistelHalves hash key h (feistelRound hash key h x) n := by
  induction n with
  | zero => rfl
  | succ n ih => exact congrArg (feistelRound hash key h) ih

/-- A round undoes itself on exchanged halves (40_feistel_round_engine R93, 42_block_xor_combine R123). -/
theorem feistelRound_swap_feistelRound (h1 : x.1.length = h) (hh : h ≤ Config.digestLen) :
    feistelRound hash key h (feistelRound hash key h x).swap = x.swap := by
  have hcancel := xorBytes_cancel (a := x.1) (b := (digest hash x.2 key).take h)
    (by rw [List.length_take, digest_length, Nat.min_eq_left hh, h1])
  exact congrArg (Prod.mk x.2) hcancel

/-- As many rounds again, from the exchanged halves, end at the exchanged halves of the start. -/
theorem feistelHalves_swap_feistelHalves (h1 : x.1.length = h) (h2 : x.2.length = h) (hh : h ≤ Config.digestLen)
    (n : Nat) :
    feistelHalves hash key h (feistelHalves hash key h x n).swap n = x.swap := by
  induction n with
  | zero => rfl
  | succ n ih =>
    rw [feistelHalves_succ_first, feistelHalves, feistelRound_swap_feistelRound (feistelHalves_length h1 h2 hh n).1 hh, ih]

/-! ### The value of `transform` -/

theorem transform_odd (hodd : B.length % 2 = 1) : transform hash B key n = .error .invalidInputLength :=
  if_pos hodd

theorem transform_tooLarge (heven : B.length % 2 = 0) (hbig : Config.digestLen < B.length / 2) :
    transform hash B key n = .error .blockTooLarge :=
  (if_neg (by omega)).trans (if_pos hbig)

theorem transform_accepted (heven : B.length % 2 = 0) (hcap : B.length / 2 ≤ Config.digestLen) :
    transform hash B key n =
      .ok ((feistelHalves hash key (B.length / 2) (B.take (B.length / 2), B.drop (B.length / 2)) n).2 ++
        (feistelHalves hash key (B.length / 2) (B.take (B.length / 2), B.drop (B.length / 2)) n).1) :=
  (if_neg (by omega)).trans (if_neg (Nat.not_lt.2 hcap))

/-- The three outcomes of `transform`, by the block's length alone (40_feistel_round_engine R80). -/
theorem transform_cases (hash : Bytes → Vector Byte Config.digestLen) (B key : Bytes) (n : Nat) :
    (B.length % 2 = 1 ∧ transform hash B key n = .error .invalidInputLength) ∨
      (B.length % 2 = 0 ∧ Config.digestLen < B.length / 2 ∧ transform hash B key n = .error .blockTooLarge) ∨
      ((B.length % 2 = 0 ∧ B.length / 2 ≤ Config.digestLen) ∧ ∃ C, transform hash B key n = .ok C) := by
  rcases Nat.mod_two_eq_zero_or_one B.length with heven | hodd
  · rcases Nat.lt_or_ge Config.digestLen (B.length / 2) with hbig | hcap
    · exact .inr (.inl ⟨heven, hbig, transform_tooLarge heven hbig⟩)
    · exact .inr (.inr ⟨⟨heven, hcap⟩, _, transform_accepted heven hcap⟩)
  · exact .inl ⟨hodd, transform_odd hodd⟩

theorem length_of_transform_ok (hC : transform hash B key n = .ok C) :
    B.length % 2 = 0 ∧ B.length / 2 ≤ Config.digestLen := by
  rcases transform_cases hash B key n with ⟨-, he⟩ | ⟨-, -, he⟩ | ⟨hB, -⟩
  · rw [hC] at he; cases he
  · rw [hC] at he; cases he
  · exact hB

/-- `transform` of two halves is `R_n ‖ L_n` (40_feistel_round_engine R80). -/
theorem transform_append (h1 : x.1.length = h) (h2 : x.2.length = h) (hh : h ≤ Config.digestLen) (n : Nat) :
    transform hash (x.1 ++ x.2) key n =
      .ok ((feistelHalves hash key h x n).2 ++ (feistelHalves hash key h x n).1) := by
  have hlen : (x.1 ++ x.2).length = 2 * h := by rw [List.length_append, h1, h2, Nat.two_mul]
  have hhalf : (x.1 ++ x.2).length / 2 = h := by omega
  rw [transform_accepted (by omega) (hhalf.trans_le hh), hhalf, List.take_left' h1, List.drop_left' h1]

/-- A block of even length up to 64 is two halves of one length (20_memory R41). -/
theorem exists_halves (heven : B.length % 2 = 0) (hcap : B.length / 2 ≤ Config.digestLen) :
    ∃ (h : Nat) (x : Bytes × Bytes), B = x.1 ++ x.2 ∧ x.1.length = h ∧ x.2.length = h ∧ h ≤ Config.digestLen :=
  ⟨B.length / 2, (B.take (B.length / 2), B.drop (B.length / 2)), (List.take_append_drop _ B).symm,
    by rw [List.length_take]; omega, by rw [List.length_drop]; omega, hcap⟩

/-- An accepted block is two halves, and its value is those after the last round, exchanged. -/
theorem exists_halves_of_transform_ok (hC : transform hash B key n = .ok C) :
    ∃ (h : Nat) (x : Bytes × Bytes), B = x.1 ++ x.2 ∧ x.1.length = h ∧ x.2.length = h ∧ h ≤ Config.digestLen ∧
      C = (feistelHalves hash key h x n).2 ++ (feistelHalves hash key h x n).1 := by
  obtain ⟨heven, hcap⟩ := length_of_transform_ok hC
  obtain ⟨h, x, rfl, h1, h2, hh⟩ := exists_halves heven hcap
  exact ⟨h, x, rfl, h1, h2, hh, Except.ok.inj (hC.symm.trans (transform_append h1 h2 hh n))⟩

theorem transform_length (hC : transform hash B key n = .ok C) : C.length = B.length := by
  obtain ⟨h, x, rfl, h1, h2, hh, rfl⟩ := exists_halves_of_transform_ok hC
  obtain ⟨hl, hr⟩ := feistelHalves_length (hash := hash) (key := key) h1 h2 hh n
  rw [List.length_append, List.length_append, hl, hr, h1, h2]

/-- A value of `transform` is taken back to the block by the same key and count (40_feistel_round_engine R93). -/
theorem transform_of_transform_ok (hC : transform hash B key n = .ok C) : transform hash C key n = .ok B := by
  obtain ⟨h, x, rfl, h1, h2, hh, rfl⟩ := exists_halves_of_transform_ok hC
  obtain ⟨hl, hr⟩ := feistelHalves_length (hash := hash) (key := key) h1 h2 hh n
  refine (transform_append (x := (feistelHalves hash key h x n).swap) hr hl hh n).trans ?_
  rw [feistelHalves_swap_feistelHalves h1 h2 hh]
  rfl

end Sys2Proof.Machine
end

section
/-! The accept step of `XFORM` and the engine steps, as `exec` runs them, and an accepted `XFORM` as `transform`
(40_feistel_round_engine R81 to R92). -/
namespace Sys2Proof.Machine
open Sys2Proof.Safety
variable {s : State}

/-! ### Bytes of an XOR and of a buffer -/

theorem xorBytes_getElem? {a b : Bytes} {j : Nat} (ha : j < a.length) (hb : j < b.length) :
    (xorBytes a b)[j]? = some (a.getD j 0 ^^^ b.getD j 0) := by
  simp [xorBytes, ha, hb]

/-- The bytes of a buffer that starts with a string are the string. -/
theorem Memory.readBytes_eq {m : Memory} {v : Bytes} (h : ∀ j < v.length, m.read j = v[j]?.getD 0x00#8) :
    m.readBytes 0 v.length = v := by
  refine List.ext_getElem (by simp) fun j _ hj => ?_
  rw [Memory.readBytes_getElem, Nat.zero_add, h j hj, List.getElem?_eq_getElem hj, Option.getD_some]

/-! ### `XFORM` and its other names -/

/-- `XFORM`, `ENCRYPT` and `DECRYPT` are one accept step, write-locked (30_encoding R67). -/
theorem exec_xformNames {i : Instr} (hi : i = .xform ∨ i = .encrypt ∨ i = .decrypt) (s : State) :
    exec i s = writeLocked s fun s => settle (xformAccept chip s) := by
  rcases hi with rfl | rfl | rfl <;> rfl

theorem xformAccept_odd {p : Params} (hodd : s.blockLen % 2 = 1) :
    xformAccept p s = .ok (s.raise .invalidInputLength) :=
  if_pos hodd

theorem xformAccept_tooLarge {p : Params} (heven : s.blockLen % 2 = 0) (hbig : Config.digestLen < s.blockLen / 2) :
    xformAccept p s = .ok (s.raise .blockTooLarge) :=
  (if_neg (by omega)).trans (if_pos hbig)

theorem xformAccept_keyTooLong {p : Params} (heven : s.blockLen % 2 = 0) (hcap : s.blockLen / 2 ≤ Config.digestLen)
    (hkey : p.kbufCap < s.keyLen) : xformAccept p s = .ok (s.raise .resourceExhausted) :=
  (if_neg (by omega)).trans ((if_neg (Nat.not_lt.2 hcap)).trans (if_pos hkey))

/-! ### The enabling conditions of the engine steps (R86, R91) -/

theorem exec_round_refused (h : s.engineStep ≠ some .round) : exec .round s = .refused .engineStepNotEnabled :=
  if_neg h

theorem exec_finish_refused (h : s.engineStep ≠ some .finish) : exec .finish s = .refused .engineStepNotEnabled :=
  if_neg h

theorem resolveLine_engineStep {i : Instr} (hi : i.hostIssued = false) (s : State) :
    resolveLine chip s (.instr i) = .error .engineStepFromHost := by
  simp only [resolveLine, hi, Bool.false_eq_true, if_false]

/-! ### An accepted `XFORM` is `transform` of the operands (R92) -/

theorem halvesAfter_xformed (h : XformReady chip s) (k : Nat) :
    halvesAfter (xformed s) k = feistelHalves Config.hash (keyBytes s) (s.blockLen / 2)
      ((blockBytes s).take (s.blockLen / 2), (blockBytes s).drop (s.blockLen / 2)) k := by
  obtain ⟨-, heven, hcap, -⟩ := h
  rw [halvesAfter, xformed_halfLen hcap, blockBytes_take, blockBytes_drop heven]
  rfl

theorem transform_blockBytes (h : XformReady chip s) :
    transform Config.hash (blockBytes s) (keyBytes s) s.rounds.toNat = .ok (xformResult s) := by
  have ⟨_, heven, hcap, _⟩ := h
  have hlen : (blockBytes s).length = s.blockLen := Memory.readBytes_length _ _ _
  rw [transform_accepted (hlen.symm ▸ heven) (hlen.symm ▸ hcap), hlen, xformResult, halvesAfter_xformed h]

theorem xformResult_length (h : XformReady chip s) : (xformResult s).length = s.blockLen :=
  (transform_length (transform_blockBytes h)).trans (Memory.readBytes_length _ _ _)

/-- The end of an accepted `XFORM`, the engine alone moving: `OLEN` is `ILEN`, and `OBUF` starts with the value of
`transform` (R92; log 6). -/
theorem run_xformed (h : XformReady chip s) (hs : s.sched = []) (hw : s.obuf.wf) :
    ∃ t, Host.Core.run core (s.rounds.toNat + 1) (xformed s) = .next t ∧
      t.status = withPhase .done (xformed s).status ∧ t.olen = s.ilen ∧ resultBytes t = xformResult s := by
  have ⟨_, heven, hcap, _⟩ := h
  have heng := engineRuns_xformed h hs
  have hlen := xformResult_length h
  obtain ⟨m, hrun, -, hread, -⟩ := heng.run_finish (k := s.rounds.toNat) (Nat.zero_add _) hw
  have holen : BitVec.ofNat Config.lenW (2 * (xformed s).halfLen) = s.ilen := by
    rw [xformed_halfLen hcap, Nat.mul_div_cancel' (Nat.dvd_of_mod_eq_zero heven)]
    exact (BitVec.ofNat_toNat _ s.ilen).trans (BitVec.setWidth_eq _)
  refine ⟨_, hrun, rfl, holen, ?_⟩
  have hbytes : m.readBytes 0 (xformResult s).length = xformResult s :=
    Memory.readBytes_eq fun j hj => (hread j).trans (if_pos (by simp at hcap ⊢; omega))
  show m.readBytes 0 (BitVec.ofNat Config.lenW (2 * (xformed s).halfLen)).toNat = xformResult s
  rw [holen]
  rwa [hlen] at hbytes

end Sys2Proof.Machine
end

section
/-! The statements of 40_feistel_round_engine. -/
namespace Sys2Proof.Machine
open Sys2Proof.Safety

/-- Settles O22: the accepted state is `xformed`. -/
theorem xformAcceptSplitsTheBlock : Obligations.XformAcceptSplitsTheBlock := by
  intro i s hi h
  have ⟨hb, _, hcap, _⟩ := h
  have hexec : exec i s = .next (xformed s) := by
    rw [exec_xformNames hi, writeLocked_free hb, xformAccept_ok h, settle_ok]
  have byte (a : Nat) {j : Nat} (hj : j < s.blockLen / 2) :
      (s.ibuf.readBytes a (s.blockLen / 2))[j]? = some (s.ibuf.read (a + j)) := by
    rw [Memory.readBytes_getElem?, if_pos hj]
  refine ⟨xformed s, hexec, by simp [xformed], by simp [xformed], by simp [xformed], xformed_halfLen hcap, rfl,
    Memory.readBytes_length .., Memory.readBytes_length .., fun j hj => ⟨?_, byte _ hj⟩, rfl, rfl,
    ⟨rfl, rfl, rfl, rfl, rfl⟩, rfl, rfl, rfl⟩
  exact (byte 0 hj).trans (by rw [Nat.zero_add])

/-- Settles O33: what `ROUND` leaves is `roundStep_ok`. -/
theorem roundComputesOneFeistelRound : Obligations.RoundComputesOneFeistelRound := by
  intro s hb hlt hkey hcap hl
  have hexec : exec .round s = _ :=
    (exec_round (State.engineStep_eq_round.2 ⟨hb, hlt⟩)).trans (congrArg settle (roundStep_ok hkey hcap hl))
  have hdigest : s.halfLen ≤ (digest chip.hash s.r (keyBytes s)).length := (digest_length ..).symm ▸ hcap
  refine ⟨_, _, hexec, ?_, afterRounds_ridx_toNat (Nat.succ_le_of_lt (BitVec.lt_def.1 hlt)), fun j hj => ?_⟩
  · rw [xorBytes_length, hl, List.length_take_of_le hdigest, Nat.min_self]
  · rw [xorBytes_getElem? (hl.symm ▸ hj) (by rwa [List.length_take_of_le hdigest])]
    simp [hj, digest]

/-- Settles O34: what `FINISH` leaves is `finishStep_ok`. -/
theorem finishStoresRightThenLeft : Obligations.FinishStoresRightThenLeft := by
  intro s hb heq hcap hl hr hw
  obtain ⟨m, hm, -, hread, -⟩ := finishStep_ok hcap hl hr hw
  have hexec : exec .finish s = _ :=
    (exec_finish (State.engineStep_eq_finish.2 ⟨hb, heq⟩)).trans (congrArg settle hm)
  have hin {j : Nat} (hj : j < 64) : m.read j = (s.r ++ s.l)[j]?.getD 0x00#8 := (hread j).trans (if_pos hj)
  have hright {j : Nat} (hj : j < s.halfLen) : s.r[j]? = some (m.read j) := by
    rw [hin (by omega), List.getElem?_append_left (hr.symm ▸ hj), List.getElem?_eq_getElem (hr.symm ▸ hj),
      Option.getD_some]
  have hleft {j : Nat} (hj : j < s.halfLen) : s.l[j]? = some (m.read (s.halfLen + j)) := by
    rw [hin (by omega), List.getElem?_append_right (by omega), hr, Nat.add_sub_cancel_left,
      List.getElem?_eq_getElem (hl.symm ▸ hj), Option.getD_some]
  have hzero {j : Nat} (hle : 2 * s.halfLen ≤ j) (hj : j < 64) : m.read j = 0x00#8 := by
    rw [hin hj, List.getElem?_eq_none (by rw [List.length_append]; omega), Option.getD_none]
  have holen : (BitVec.ofNat Config.lenW (2 * s.halfLen)).toNat = 2 * s.halfLen :=
    toNat_ofNat_of_le_obufCap (by decide) (by rw [Config.obufCap_eq]; omega)
  exact ⟨_, hexec, statusPhase_withPhase .done s.status, statusErr_withPhase .done s.status,
    statusReserved_withPhase .done s.status, holen, fun j hj => ⟨hright hj, hleft hj⟩, fun _ => hzero,
    fun j hj => (hread j).trans (if_neg (Nat.not_lt.2 hj)), rfl, rfl, rfl, rfl, ⟨rfl, rfl, rfl, rfl, rfl⟩,
    rfl, rfl, rfl⟩

/-- Settles O45: a block of such a length is accepted, and the rounds run backwards (`transform_of_transform_ok`). -/
theorem transformTwiceIsTheBlock : Obligations.TransformTwiceIsTheBlock := by
  intro hash B K n heven hcap
  obtain ⟨h, x, rfl, h1, h2, hh⟩ := exists_halves heven (by rw [Config.digestLen_eq]; omega)
  have hC := transform_append (hash := hash) (key := K) h1 h2 hh n
  exact ⟨_, hC, transform_of_transform_ok hC⟩

/-- Settles O46: each half keeps its length (`feistelHalves_length`). -/
theorem transformPreservesTheLength : Obligations.TransformPreservesTheLength :=
  fun _ _ _ _ _ hC => transform_length hC

/-- Settles O49: both blocks are `transform` of their common value. -/
theorem transformIsInjective : Obligations.TransformIsInjective := by
  intro hash B B' K C n hC hC'
  exact Except.ok.inj ((transform_of_transform_ok hC).symm.trans (transform_of_transform_ok hC'))

/-- Settles O50: the accepted state is run by `EngineRuns.run_rounds` and ends as `run_xformed` says. -/
theorem xformAgreesWithTransform : Obligations.XformAgreesWithTransform := by
  intro s hb hkey hs hw
  refine ⟨fun B e hlen he => ?_, fun C hC => ?_⟩
  · have hraise : xformAccept chip s = .ok (s.raise e) := by
      rcases transform_cases Config.hash B (keyBytes s) s.rounds.toNat with ⟨hodd, h⟩ | ⟨heven, hbig, h⟩ | ⟨-, C, h⟩
      · rw [he] at h; cases h; exact xformAccept_odd (hlen ▸ hodd)
      · rw [he] at h; cases h; exact xformAccept_tooLarge (hlen ▸ heven) (hlen ▸ hbig)
      · rw [he] at h; cases h
    refine ⟨?_, State.engineStep_of_not_busy (State.raise_busy s e)⟩
    rw [exec_xform, writeLocked_free hb, hraise, settle_ok]
  · have hready : XformReady chip s := by
      obtain ⟨heven, hcap⟩ := length_of_transform_ok hC
      rw [Memory.readBytes_length] at heven hcap
      exact ⟨hb, heven, hcap, hkey⟩
    have heng := engineRuns_xformed hready hs
    have hzero {k : Nat} : (xformed s).ridx.toNat + k = k := Nat.zero_add k
    obtain ⟨t, hrun, hstatus, holen, hres⟩ := run_xformed hready hs hw
    have hphase : statusPhase t.status = Phase.done.code := by rw [hstatus, statusPhase_withPhase]
    have hfree : t.busy = false := by simp [State.busy, State.phaseIs, hphase]
    refine ⟨xformed s, t, execXform_ready hready, xformed_busy s, fun k hk => ?_, ?_, hrun,
      State.engineStep_of_not_busy hfree, hphase, ?_, holen, hres.trans ?_⟩
    · exact ⟨_, heng.run_rounds (hzero.trans_le hk.le), heng.engineStep_round (hzero.trans_lt hk)⟩
    · exact ⟨_, heng.run_rounds hzero.le, heng.engineStep_finish hzero⟩
    · rw [hstatus, statusErr_withPhase]
      simp [xformed]
    · exact Except.ok.inj ((transform_blockBytes hready).symm.trans hC)

/-- Settles O51: the rounds of the machine are those of `transform` (`EngineRuns.run_rounds`). -/
theorem afterEachRoundTheHalvesAreTransforms : Obligations.AfterEachRoundTheHalvesAreTransforms := by
  intro s h hs
  refine ⟨xformed s, execXform_ready h, fun k hk => ?_⟩
  have hle : (xformed s).ridx.toNat + k ≤ (xformed s).rounds.toNat := (Nat.zero_add k).trans_le hk
  exact ⟨_, (engineRuns_xformed h hs).run_rounds hle, (afterRounds_ridx_toNat hle).trans (Nat.zero_add k),
    halvesAfter_xformed h k⟩

/-- Settles O55: each of the three steps, whenever it completes, writes only what its frame says. -/
theorem xformWritesNoOperand : Obligations.XformWritesNoOperand := by
  intro i s t hi h
  rcases hi with rfl | rfl | rfl
  · rcases writeLocked_next (exec_xform s ▸ h) with ⟨-, rfl⟩ | ⟨hb, h⟩
    · exact ⟨⟨rfl, rfl, rfl, rfl, rfl⟩, rfl, rfl, rfl⟩
    · rw [settle_eq_next] at h
      rcases xformAccept_cases (p := chip) hb with ⟨e, -, hx⟩ | ⟨-, hx⟩ <;> rw [hx] at h <;> cases h <;>
        exact ⟨⟨rfl, rfl, rfl, rfl, rfl⟩, rfl, rfl, rfl⟩
  · obtain ⟨_, rfl⟩ := roundStep_frame (settle_eq_next.1 (eq_next_of_guarded h))
    exact ⟨⟨rfl, rfl, rfl, rfl, rfl⟩, rfl, rfl, rfl⟩
  · obtain ⟨_, rfl⟩ := finishStep_frame (settle_eq_next.1 (eq_next_of_guarded h))
    exact ⟨⟨rfl, rfl, rfl, rfl, rfl⟩, rfl, rfl, rfl⟩

/-- Settles O23, by the three checks in order. -/
theorem xformRaisesTheFirstErrorThatApplies : Obligations.XformRaisesTheFirstErrorThatApplies := by
  intro i s hi hb
  have raises {e : ErrCode} (h : xformAccept chip s = .ok (s.raise e)) : exec i s = .next (s.raise e) := by
    rw [exec_xformNames hi, writeLocked_free hb, h, settle_ok]
  refine ⟨fun hodd => raises (xformAccept_odd hodd), fun heven hbig => raises (xformAccept_tooLarge heven ?_),
    fun heven hcap hkey => raises (xformAccept_keyTooLong heven ?_ hkey)⟩ <;>
  · rw [Config.digestLen_eq]
    omega

/-- Settles O35, by the enabled engine step and by what a host's line stands for. -/
theorem engineStepsNeedTheirCondition : Obligations.EngineStepsNeedTheirCondition := by
  refine ⟨fun s h => exec_round_refused (mt State.engineStep_eq_round.1 h),
    fun s h => exec_finish_refused (mt State.engineStep_eq_finish.1 h), fun s rest i hi hturn hhost => ?_⟩
  have hissued : i.hostIssued = false := by rcases hi with rfl | rfl <;> rfl
  exact (step_of_host hturn).trans (hostTurn_refused hhost (resolveLine_engineStep hissued s.dropTurn))

/-- Settles O47: no round is made. -/
theorem transformOfZeroRoundsSwapsTheHalves : Obligations.TransformOfZeroRoundsSwapsTheHalves :=
  fun _ L R _ hlen hcap => transform_append (x := (L, R)) rfl hlen.symm hcap 0

/-- Settles O48, by the two length checks. -/
theorem transformRejectsTheLengths : Obligations.TransformRejectsTheLengths :=
  fun _ B _ _ => ⟨transform_odd, fun heven hbig => transform_tooLarge heven (by rw [Config.digestLen_eq]; omega)⟩

end Sys2Proof.Machine
end

section
/-! The errors of `DIGEST` and `XORC`, each check in its order (41_hash_round_function_wrapper R115,
42_block_xor_combine R124). -/
namespace Sys2Proof.Machine
variable {rW lW : Nat} {p : Params} {s : State rW lW}

theorem digestCommand_operandTooLong (h : Config.ibufCap < s.blockLen ∨ p.kbufCap < s.keyLen) :
    digestCommand p s = .ok (s.raise .resourceExhausted) := by
  by_cases hblock : s.blockLen > Config.ibufCap
  · exact if_pos hblock
  · exact (if_neg hblock).trans (if_pos (h.resolve_left hblock))

theorem xorCommand_odd (hodd : s.blockLen % 2 = 1) : xorCommand s = .ok (s.raise .invalidInputLength) :=
  if_pos hodd

theorem xorCommand_blockTooLong (heven : s.blockLen % 2 = 0) (hlong : Config.ibufCap < s.blockLen) :
    xorCommand s = .ok (s.raise .resourceExhausted) :=
  (if_neg (by omega)).trans (if_pos hlong)

end Sys2Proof.Machine
end

section
/-! The statements of 41_hash_round_function_wrapper. -/
namespace Sys2Proof.Machine
open Sys2Proof.Safety

/-- Settles O24: `execAt_digest_ok` gives the state after `DIGEST` and every byte of its `OBUF`. -/
theorem digestStoresTheHashOfMessageThenKey : Obligations.DigestStoresTheHashOfMessageThenKey := by
  intro s hb hblock hkey hw
  obtain ⟨m, hexec, -, hread⟩ := execAt_digest_ok (p := chip) hb hblock hkey hw
  have hin {j : Nat} (hj : j < 64) : m.read j = (digest chip.hash (blockBytes s) (keyBytes s))[j]?.getD 0x00#8 :=
    (hread j).trans (if_pos hj)
  have hdigest (j : Nat) (hj : j < 32) : (digest chip.hash (blockBytes s) (keyBytes s))[j]? = some (m.read j) := by
    rw [hin (by omega)]
    exact digest_getElem? _ _ _ hj
  have hzero (j : Nat) (hle : 32 ≤ j) (hj : j < 64) : m.read j = 0x00#8 := by
    rw [hin hj, List.getElem?_eq_none (by rwa [digest_length]), Option.getD_none]
  exact ⟨_, (exec_eq_execAt .digest s).trans hexec, by simp, by simp, by simp, rfl, hdigest, hzero,
    fun j hj => (hread j).trans (if_neg (Nat.not_lt.2 hj)), rfl, rfl, rfl, rfl, ⟨rfl, rfl, rfl, rfl, rfl⟩, rfl, rfl, rfl⟩

/-- Settles O26: while not `BUSY` each command answers its computation, which raises at its first failing check. -/
theorem digestAndXorcRaiseTheFirstErrorThatApplies : Obligations.DigestAndXorcRaiseTheFirstErrorThatApplies := by
  intro s hb
  refine ⟨fun hlong => ?_, fun hodd => ?_, fun heven hbig => ?_⟩
  · rw [exec_digest, writeLocked_free hb, digestCommand_operandTooLong hlong, settle_ok]
  · rw [exec_xorc, writeLocked_free hb, xorCommand_odd hodd, settle_ok]
  · have hlong : Config.ibufCap < s.blockLen := by rw [Config.ibufCap_eq]; omega
    rw [exec_xorc, writeLocked_free hb, xorCommand_blockTooLong heven hlong, settle_ok]

/-- Settles O44: `digest` takes its two arguments only through their concatenation. -/
theorem digestIsTheHashOfTheConcatenation : Obligations.DigestIsTheHashOfTheConcatenation :=
  fun hash m k _ _ => ⟨rfl, digest_length hash m k, congrArg fun b => (hash b).toList⟩

end Sys2Proof.Machine
end

section
/-! The byte-wise XOR of two strings and its laws, and the state after `XORC` (42_block_xor_combine R120 to R124). -/
namespace Sys2Proof.Machine
variable {rW lW : Nat}

/-! ### The function (R120, R123) -/

theorem xorBytes_getElem {a b : Bytes} {j : Nat} (hj : j < (xorBytes a b).length) :
    (xorBytes a b)[j] = a[j]'(by simp at hj; omega) ^^^ b[j]'(by simp at hj; omega) :=
  List.getElem_zipWith

theorem xorBytes_getD {a b : Bytes} {j : Nat} (ha : j < a.length) (hb : j < b.length) :
    (xorBytes a b).getD j 0 = a.getD j 0 ^^^ b.getD j 0 := by
  rw [List.getD_eq_getElem?_getD, xorBytes_getElem? ha hb, Option.getD_some]

theorem xorBytes_comm (a b : Bytes) : xorBytes a b = xorBytes b a :=
  List.zipWith_comm_of_comm BitVec.xor_comm

theorem xorBytes_assoc (a b c : Bytes) : xorBytes (xorBytes a b) c = xorBytes a (xorBytes b c) := by
  refine List.ext_getElem (by simp only [xorBytes_length, Nat.min_assoc]) fun j _ _ => ?_
  simp only [xorBytes_getElem, BitVec.xor_assoc]

theorem xorBytes_self (a : Bytes) : xorBytes a a = zeros a.length := by
  rw [xorBytes, List.zipWith_self]
  simp only [BitVec.xor_self, List.map_const']

/-- `a ^ zeros(n)` is `a ^ (a ^ a)`, which cancels. -/
theorem xorBytes_zeros (a : Bytes) : xorBytes a (zeros a.length) = a := by
  rw [← xorBytes_self, ← xorBytes_assoc, xorBytes_cancel rfl]

/-! ### The command (R124) -/

/-- A byte of the XOR of two parts of a buffer, with zeros after its end. -/
theorem xorBytes_readBytes_getD (m : Memory) (x y n j : Nat) :
    (xorBytes (m.readBytes x n) (m.readBytes y n))[j]?.getD 0x00#8 =
      if j < n then m.read (x + j) ^^^ m.read (y + j) else 0x00#8 := by
  by_cases hj : j < n
  · rw [xorBytes_getElem? (by simpa using hj) (by simpa using hj)]
    simp [hj]
  · rw [if_neg hj, List.getElem?_eq_none (by simpa using hj), Option.getD_none]

/-- `XORC` where the halves exist and fit: their XOR at the start of `OBUF`, zeros after it. -/
theorem xorCommand_result {s : State rW lW} (heven : s.blockLen % 2 = 0) (hblock : s.blockLen ≤ 64) (hw : s.obuf.wf) :
    ∃ m : Memory,
      xorCommand s = .ok (State.accept .done { s with olen := BitVec.ofNat lW (s.blockLen / 2), obuf := m }) ∧
      ∀ j, m.read j =
        if j < 64 then
          if j < s.blockLen / 2 then s.ibuf.read j ^^^ s.ibuf.read (s.blockLen / 2 + j) else 0x00#8
        else s.obuf.read j := by
  have hlen : (xorBytes (s.ibuf.readBytes 0 (s.blockLen / 2))
      (s.ibuf.readBytes (s.blockLen / 2) (s.blockLen / 2))).length = s.blockLen / 2 := by simp
  obtain ⟨m, hst, -, hread, -⟩ := storeResult_ok (hlen.trans_le (by rw [Config.obufCap_eq]; omega)) hw
  refine ⟨m, ?_, fun j => ?_⟩
  · rw [xorCommand_ok heven hblock, hst, hlen]
    rfl
  · rw [hread j, xorBytes_readBytes_getD, Nat.zero_add, Config.obufCap_eq]

end Sys2Proof.Machine
end

section
/-! The statements of 42_block_xor_combine. -/
namespace Sys2Proof.Machine

/-- Settles O25: `xorCommand_result` gives the state after `XORC` and every byte of its `OBUF`. -/
theorem xorcStoresTheXorOfTheHalves : Obligations.XorcStoresTheXorOfTheHalves := by
  intro s hb heven hblock hw
  obtain ⟨m, hm, hread⟩ := xorCommand_result heven hblock hw
  have hexec : exec .xorc s = _ :=
    (exec_xorc s).trans ((writeLocked_free hb).trans (congrArg settle hm))
  have holen : (BitVec.ofNat Config.lenW (s.blockLen / 2)).toNat = s.blockLen / 2 :=
    toNat_ofNat_of_le_obufCap (by decide) (by rw [Config.obufCap_eq]; omega)
  exact ⟨_, hexec, by simp, by simp, by simp, holen, fun j hj => (hread j).trans (if_pos hj),
    fun j hj => (hread j).trans (if_neg (Nat.not_lt.2 hj)), rfl, rfl, rfl, rfl, ⟨rfl, rfl, rfl, rfl, rfl⟩, rfl, rfl, rfl⟩

/-- Settles O42: a byte of the XOR is the XOR of the two bytes, and so is each of its bits. -/
theorem xorCombineIsBitwise : Obligations.XorCombineIsBitwise := by
  refine ⟨fun a b h => ⟨xorBytes a b, xorCombine_ok h, ?_, fun j k hj _ => ?_⟩, fun a b h => if_neg h⟩
  · rw [xorBytes_length, ← h, Nat.min_self]
  · rw [xorBytes_getD hj (h ▸ hj), BitVec.getLsbD_xor]

/-- Settles O43, law by law. -/
theorem xorLaws : Obligations.XorLaws :=
  fun a b c hab _ => ⟨xorBytes_comm a b, xorBytes_assoc a b c, xorBytes_zeros a, xorBytes_self a, xorBytes_cancel hab⟩

end Sys2Proof.Machine
end

section
/-! What a value written to `CMD` does, by the row it decodes to (30_encoding R68, 43_control R131, R133). -/
namespace Sys2Proof.Machine
open Sys2Proof.Safety

/-- The reserved rows are the values from `0x04` on (43_control R131). -/
theorem isReserved_decodeCmd : ∀ v : Byte, 4 ≤ v.toNat ↔ isReserved (decodeCmd v) = true := by decide

/-- A value written to `CMD` is one of the four commands, or is reserved. -/
theorem cmdValue_cases : ∀ v : Byte,
    v = 0x00#8 ∨ v = 0x01#8 ∨ v = 0x02#8 ∨ v = 0x03#8 ∨ isReserved (decodeCmd v) = true := by decide

theorem acceptCommand_reserved {rW lW : Nat} {p : Params} {v : Byte} (hv : isReserved (decodeCmd v) = true)
    (s : State rW lW) :
    acceptCommand p v s = writeLocked s fun s => .next (s.raise .cmdIllegal) := by
  have hne {c : Byte} (hc : isReserved (decodeCmd c) = false) : v ≠ c := fun h => by simp [← h, hv] at hc
  simp only [acceptCommand, if_neg (hne (c := 0x00#8) rfl), if_neg (hne (c := 0x01#8) rfl),
    if_neg (hne (c := 0x02#8) rfl), if_neg (hne (c := 0x03#8) rfl)]

/-- A write to `CMD` does what the row of its value does (30_encoding R68). -/
theorem acceptCommand_eq_exec (v : Byte) (s : State) : acceptCommand chip v s = exec (decodeCmd v) s := by
  rcases cmdValue_cases v with rfl | rfl | rfl | rfl | hv
  · rfl
  · rfl
  · rfl
  · rfl
  · exact (acceptCommand_reserved hv s).trans (exec_isReserved hv s).symm

theorem exec_wr_reg_free {g : Reg} {s : State} (hb : s.busy = false) (hg : g ≠ .cmd) (v : Nat) :
    exec (.wr (.reg g) v) s = .next (s.writeReg v g) :=
  (exec_wr_reg hg v s).trans (writeLocked_free hb)

/-- A write of a read-only register is ignored in every phase (43_control R133). -/
theorem exec_wr_readOnly {g : Reg} (hg : g = .status ∨ g = .half ∨ g = .ridx ∨ g = .olen) (v : Nat) (s : State) :
    exec (.wr (.reg g) v) s = .next s := by
  have ignored : writeLocked s .next = .next s := ite_self _
  rcases hg with rfl | rfl | rfl | rfl <;> exact ignored

end Sys2Proof.Machine
end

section
/-! `ERR` outside the `ERROR` phase, and a `BUSY` state of R28 run by the engine alone. -/
namespace Sys2Proof.Machine
open Sys2Proof.Safety

/-- Outside `ERROR` there is no error code (10_state R28 item 1). -/
theorem statusErr_eq_zero {rW lW : Nat} {s : State rW lW} {ph : Phase} (h : StatusLegal s) (hs : s.phaseIs ph = true)
    (hph : ph ≠ .error) : statusErr s.status = 0 := by
  obtain ⟨herr, -, -⟩ := h
  by_contra hne
  exact hph (State.phaseIs_unique hs (herr.1 hne))

theorem engineRuns_of_inv {s : State} (h : Inv chip s) (hb : s.busy = true) (hs : s.sched = []) : EngineRuns s := by
  obtain ⟨-, hhalves, hbusy, -, -⟩ := h
  obtain ⟨-, -, hkey⟩ := hbusy hb
  exact ⟨hs, hb, hkey, hhalves⟩

end Sys2Proof.Machine
end

section
/-! The statements of 43_control. -/
namespace Sys2Proof.Machine
open Sys2Proof.Safety

/-- Settles O20: what `CLR` leaves is `clearCommand_ok`. -/
theorem clrClearsTheEngineState : Obligations.ClrClearsTheEngineState := by
  intro s hb hw
  obtain ⟨m, hm, -, hread, -⟩ := clearCommand_ok hw
  have hexec : exec .clr s = _ :=
    (exec_clr s).trans ((writeLocked_free hb).trans (congrArg settle hm))
  exact ⟨_, hexec, by simp, by simp, by simp, rfl, rfl, rfl, fun j hj => (hread j).trans (if_pos hj),
    fun j hj => (hread j).trans (if_neg (Nat.not_lt.2 hj)), ⟨rfl, rfl, rfl, rfl, rfl⟩, rfl, rfl, rfl⟩

/-- Settles O54: the rounds left are run by `EngineRuns.run_rounds`, and `EngineRuns.run_finish` ends the operation;
its `ERR` is that of the `BUSY` state, which has none. -/
theorem busyReachesDone : Obligations.BusyReachesDone := by
  intro s h hb hs
  have heng := engineRuns_of_inv h hb hs
  obtain ⟨hlegal, -, hbusy, -, -, -, hw, -⟩ := h
  obtain ⟨hridx, -, -⟩ := hbusy hb
  have hcount : s.ridx.toNat + (s.rounds.toNat - s.ridx.toNat) = s.rounds.toNat := Nat.add_sub_cancel' hridx
  refine ⟨fun k hk => ?_, ?_⟩
  · have hle : s.ridx.toNat + k ≤ s.rounds.toNat := (Nat.add_le_add_left hk _).trans_eq hcount
    exact ⟨afterRounds s k, heng.run_rounds hle, hb⟩
  · obtain ⟨m, hrun, -⟩ := heng.run_finish hcount hw
    have herr : statusErr s.status = 0 := statusErr_eq_zero hlegal hb (by decide : Phase.busy ≠ .error)
    exact ⟨_, hrun, by simp, (statusErr_withPhase .done s.status).trans herr, ⟨rfl, rfl, rfl, rfl, rfl⟩, rfl, rfl, rfl⟩

/-- Settles O21: the reserved rows by their values; each is the write-locked `raise CmdIllegal`. -/
theorem reservedCommandsRaiseCmdIllegal : Obligations.ReservedCommandsRaiseCmdIllegal := by
  refine ⟨isReserved_decodeCmd, fun i s hi => ⟨fun hb => ?_, fun hb => ?_⟩⟩
  · exact exec_busy_of_locked hb (exec_isReserved hi s)
  · have hexec : exec i s = .next (s.raise .cmdIllegal) := (exec_isReserved hi s).trans (writeLocked_free hb)
    exact ⟨_, hexec, statusPhase_withPhase .., by simp [ErrCode.code], by simp⟩

/-- Settles O28: `WR` of `CMD` is `acceptCommand`, of any other register a write-locked `writeReg`, whose truncation
takes the value only modulo the width. -/
theorem writeStoresTheOperandRegister : Obligations.WriteStoresTheOperandRegister := by
  intro s v
  have truncated (w : Nat) : BitVec.ofNat w (v % 2 ^ w) = BitVec.ofNat w v := BitVec.eq_of_toNat_eq (Nat.mod_mod v _)
  simp only [truncated]
  refine ⟨fun g hb => exec_wr_busy hb rfl v, ?_, ?_, ?_, ?_, fun g hg => exec_wr_readOnly hg v s⟩
  · exact acceptCommand_eq_exec (BitVec.ofNat 8 v) s
  · exact fun hb => exec_wr_reg_free hb (by decide : Reg.rounds ≠ .cmd) v
  · exact fun hb => exec_wr_reg_free hb (by decide : Reg.ilen ≠ .cmd) v
  · exact fun hb => exec_wr_reg_free hb (by decide : Reg.klen ≠ .cmd) v

/-- Settles O30: the index lies in the buffer, so the byte is answered. -/
theorem readByteReturnsTheByte : Obligations.ReadByteReturnsTheByte :=
  fun _ _ _ hk => if_pos hk

/-- Settles O32: both accesses are guarded by the capacity. -/
theorem indexBeyondCapacityIsRefused : Obligations.IndexBeyondCapacityIsRefused :=
  fun _ _ _ _ hk => ⟨if_neg (Nat.not_lt.2 hk), if_neg (Nat.not_lt.2 hk)⟩

end Sys2Proof.Machine
end

section
/-! `STATUS` after an engine's turn, and the byte a host reads after an error (60_exceptions R146, R149). -/
namespace Sys2Proof.Machine

/-- All that an engine's turn writes of `STATUS` is `PHASE <- DONE` (40_feistel_round_engine R91). -/
theorem step_of_engine_status {s t : State} (hturn : s.turn = .engine) (h : step s = .next t) :
    t.status = s.status ∨ t.status = withPhase .done s.status := by
  rcases step_cases h with ⟨hreset, -⟩ | ⟨-, -, hround⟩ | ⟨-, -, hfinish⟩ | ⟨-, -, rfl⟩ | ⟨hhost, -⟩ | ⟨hhost, -⟩
  · cases hturn.symm.trans hreset
  · obtain ⟨_, rfl⟩ := roundStep_frame hround
    exact .inl rfl
  · obtain ⟨_, rfl⟩ := finishStep_frame hfinish
    exact .inr rfl
  · exact .inl rfl
  · cases hturn.symm.trans hhost
  · cases hturn.symm.trans hhost

/-- The phase is `ERROR` and the code that of `e`, whatever `STATUS` was. -/
theorem State.raise_readReg_status {rW lW : Nat} (e : ErrCode) (s : State rW lW) :
    (s.raise e).readReg .status = Phase.error.code.toNat + 4 * e.code.toNat := by
  simp [State.readReg, statusRead_toNat]

end Sys2Proof.Machine
end

section
/-! The statements of 60_exceptions. -/
namespace Sys2Proof.Machine

/-- Settles O16, by what an engine's turn writes of `STATUS` (`step_of_engine_status`): after `PHASE <- DONE` the code
is the one before, and the phase is not `ERROR`. -/
theorem engineTurnsRaiseNothing : Obligations.EngineTurnsRaiseNothing := by
  intro s t hturn hstep
  simp only [State.phaseIs_iff]
  rcases step_of_engine_status hturn hstep with hstatus | hstatus <;> rw [hstatus]
  · exact ⟨rfl, id⟩
  · refine ⟨statusErr_withPhase .done s.status, fun herror => ?_⟩
    rw [statusPhase_withPhase] at herror
    exact absurd herror (by decide)

/-- Settles O17: the three fields of `STATUS` after its two writes, and `raise` makes no other write. -/
theorem raiseWritesStatusOnly : Obligations.RaiseWritesStatusOnly :=
  fun _ _ => ⟨statusPhase_withPhase .., by simp, by simp, rfl⟩

/-- Settles O18, by the value read after any error (`State.raise_readReg_status`). -/
theorem errorStatusBytes : Obligations.ErrorStatusBytes :=
  fun s => ⟨s.raise_readReg_status _, s.raise_readReg_status _, s.raise_readReg_status _, s.raise_readReg_status _⟩

end Sys2Proof.Machine
end

section
/-! The statement of 70_reset_and_hazards. -/
namespace Sys2Proof.Machine

/-- A turn of the reset input takes the turn and resets the block (70_reset_and_hazards R170). -/
theorem step_of_reset {s : State} (hturn : s.turn = .reset) : step s = .next s.dropTurn.applyReset := by
  simp only [step, stepWith, hturn]

/-- No engine step is enabled after a reset (70_reset_and_hazards R171). -/
@[simp] theorem State.applyReset_engineStep {rW lW : Nat} (s : State rW lW) : s.applyReset.engineStep = none :=
  State.engineStep_of_not_busy (State.applyReset_phaseIs s .busy)

/-- Settles O12: a reset turn answers `applyReset` from any state, whose registers are zero and whose buffers are
empty. -/
theorem resetTurnResetsTheBlock : Obligations.ResetTurnResetsTheBlock := by
  intro s hturn
  exact ⟨s.dropTurn.applyReset, step_of_reset hturn, rfl, rfl, rfl, rfl, rfl, rfl, rfl, fun _ => ⟨rfl, rfl, rfl⟩,
    s.dropTurn.applyReset_engineStep, rfl, rfl, rfl⟩

end Sys2Proof.Machine
end
